-- ==== Sys2Proof/Word.lean ====
section
/-! DEFINITION. The words of the address-space guard block: 8-bit memory bytes, 16-bit stream words and the
status register, 32-bit addresses, registers and data (spec/10_state.md R10 to R14), and the three access sizes
(spec/20_memory.md R41). -/

namespace Sys2Proof

/-- A byte of `MEM` (R10). -/
abbrev Byte := BitVec 8

/-- A 16-bit word: the extension word (R56), the status register (R14). -/
abbrev Half := BitVec 16

/-- A 32-bit word: registers, `PC`, addresses, `RDATA`, `WDATA` (R11 to R13, R50, R55). -/
abbrev Word := BitVec 32

/-- The three access sizes of R41 and R53: byte, word, long. -/
inductive Size where
  | byte
  | word
  | long
deriving DecidableEq, Repr

end Sys2Proof
end

