-- ==== Sys2Proof/Config.lean ====
section
/-! DEFINITION. The constants the spec fixes (spec/00_scope.md R3) and the configuration record of the parameters
it leaves open (R4). No value of this hardware is left undefined by the spec after an instruction that completes,
so there is no free value here. -/

namespace Sys2Proof

/-- The parameters of R4: constant for a run (R15 to R18, R139). The machine's configuration is the field `cfg` of
State; a value of this type is well formed when R5 holds (`Config.wf`). -/
structure Config where
  /-- `MEM_ALOC`: the length of `MEM` in bytes (R15). -/
  memAloc : Word
  /-- `ENV_TOP`: the lowest address of the fast path (R16). -/
  envTop : Word
  /-- `IO_THROUGH`: accesses to the I/O region are neutralised instead of fatal (R17). -/
  ioThrough : Bool
  /-- `DIAG`: an abort also emits the register dump (R18). -/
  diag : Bool
deriving DecidableEq, Repr

/-- `ADDR_MASK` of R3: the 24-bit physical address width. -/
def Config.addrMask : Word := 0x00FFFFFF

/-- `IO_BASE` of R3: the first address of the extended/I/O region. -/
def Config.ioBase : Word := 0x00C00000

/-- `ABORT_STATUS` of R3. -/
def Config.abortStatus : Nat := 2

/-- DESIGN CHOICE (log 4), unsafe: the configuration at reset. It is T0 of spec/95_test_vectors.md section 0, the
one configuration the spec's own vectors use; the spec gives no reset value (R26). -/
def Config.t0 : Config :=
  { memAloc := 0x00100000, envTop := 0x00002000, ioThrough := false, diag := false }

end Sys2Proof
end

