-- ==== Sys2Proof/Syntax.lean ====
section
/-! DEFINITION. The instructions: one constructor per row of spec/opcode_table.json. Thirteen are commands of the
block (spec/30_encoding.md R52), with the operands the request hands over (R50); four are the variants of the brief
extension word, the operand word that IDX_GET consumes at `PC` (R56, log 9). -/

namespace Sys2Proof

inductive Instr where
  /-- GUARD_RD addr (R71). -/
  | guardRd (addr : Word)
  /-- GUARD_WR addr (R72). -/
  | guardWr (addr : Word)
  /-- MEM_RD.B addr (R81). -/
  | memRdB (addr : Word)
  /-- MEM_RD.W addr (R82). -/
  | memRdW (addr : Word)
  /-- MEM_RD.L addr (R83). -/
  | memRdL (addr : Word)
  /-- MEM_WR.B addr, data (R84). -/
  | memWrB (addr wdata : Word)
  /-- MEM_WR.W addr, data (R85). -/
  | memWrW (addr wdata : Word)
  /-- MEM_WR.L addr, data (R86). -/
  | memWrL (addr wdata : Word)
  /-- IDX_GET (R91). -/
  | idxGet
  /-- IMM_GET.B (R92). -/
  | immGetB
  /-- IMM_GET.W (R93). -/
  | immGetW
  /-- IMM_GET.L (R94). -/
  | immGetL
  /-- ABORT addr (R100). -/
  | abort (addr : Word)
  /-- EXT(Dn.W, d): word index from a data register; `ign` is bits 10:8 of the word (R56, R57). -/
  | extDnW (reg : Fin 8) (ign : BitVec 3) (disp : BitVec 8)
  /-- EXT(Dn.L, d): long index from a data register (R56, R57). -/
  | extDnL (reg : Fin 8) (ign : BitVec 3) (disp : BitVec 8)
  /-- EXT(An.W, d): word index from an address register (R56, R57). -/
  | extAnW (reg : Fin 8) (ign : BitVec 3) (disp : BitVec 8)
  /-- EXT(An.L, d): long index from an address register (R56, R57). -/
  | extAnL (reg : Fin 8) (ign : BitVec 3) (disp : BitVec 8)
deriving DecidableEq, Repr

end Sys2Proof
end

