-- ==== Sys2Proof/WellFormed.lean ====
section
/-! DEFINITION. The checks on what is handed to the machine: a configuration (spec/00_scope.md R5), a command byte
(spec/30_encoding.md R52, R54), an instruction. -/

namespace Sys2Proof

/-- R5: a configuration is well formed when `ENV_TOP <= MEM_ALOC` and `MEM_ALOC <= 0xC00000` (unsigned, D25). -/
def Config.wf (c : Config) : Bool :=
  decide (c.envTop ≤ c.memAloc) && decide (c.memAloc ≤ Config.ioBase)

/-- The 13 command bytes of R52. -/
def definedCommands : List (BitVec 8) :=
  [0x00, 0x10, 0x20, 0x21, 0x22, 0x30, 0x31, 0x32, 0x40, 0x50, 0x51, 0x52, 0x60]

/-- A command byte is defined when it is one of the 13 values of R52; every other byte is reserved (R54). -/
def commandDefined (cmd : BitVec 8) : Bool := definedCommands.contains cmd

/-- An instruction is well formed for every value its operands' types hold: any 32-bit `ADDR` and `WDATA` is an
operand (R50), and all 65536 extension words are legal (R57). The register index is bounded by its type. -/
def Instr.wf (i : Instr) : Bool :=
  match i with
  | .guardRd _ => true
  | .guardWr _ => true
  | .memRdB _ => true
  | .memRdW _ => true
  | .memRdL _ => true
  | .memWrB _ _ => true
  | .memWrW _ _ => true
  | .memWrL _ _ => true
  | .idxGet => true
  | .immGetB => true
  | .immGetW => true
  | .immGetL => true
  | .abort _ => true
  | .extDnW _ _ _ => true
  | .extDnL _ _ _ => true
  | .extAnW _ _ _ => true
  | .extAnL _ _ _ => true

end Sys2Proof
end

