-- ==== Sys2Proof/Decode.lean ====
section
/-! DEFINITION. Decoding and encoding. A command comes as a request `{CMD, ADDR, WDATA}` (spec/30_encoding.md R50)
whose command byte has the format CMD8 (R51, R52); the operand word of IDX_GET has the format EXT16 (R56, R57). The
decoder is total: a command byte that is none of the 13 defined ones is refused as reserved (R54); every extension
word is legal (R57). The encoder is written from the same two tables. -/

namespace Sys2Proof

/-- A request of the host (R50). -/
structure Request where
  cmd : BitVec 8
  addr : Word
  wdata : Word
deriving DecidableEq, Repr

/-- The two reasons for which the block refuses a request (R54, R115). -/
inductive RefusedReason where
  /-- the command byte is reserved (R54) -/
  | reservedCommand
  /-- `RUN = Aborting` (R115) -/
  | aborting
deriving DecidableEq, Repr

/-- What an instruction is written as: a request, or a 16-bit word of the instruction stream. -/
inductive Encoding where
  | command (r : Request)
  | extension (w : Half)
deriving DecidableEq, Repr

/-- `OP`, bits 7:4 of the command byte (R51). -/
def opField (cmd : BitVec 8) : BitVec 4 := cmd.extractLsb' 4 4

/-- `ZERO`, bits 3:2 of the command byte (R51). -/
def zeroField (cmd : BitVec 8) : BitVec 2 := cmd.extractLsb' 2 2

/-- `SZ`, bits 1:0 of the command byte (R51, R53). -/
def szField (cmd : BitVec 8) : BitVec 2 := cmd.extractLsb' 0 2

/-- A command that takes no size: `SZ` must be 00 (R51, R54). -/
def withoutSize (sz : BitVec 2) (i : Instr) : Except RefusedReason Instr :=
  if sz = 0 then .ok i else .error .reservedCommand

/-- A command that takes a size: `SZ` 00 byte, 01 word, 10 long, 11 reserved (R53). -/
def bySize (sz : BitVec 2) (byte word long : Instr) : Except RefusedReason Instr :=
  if sz = 0 then .ok byte
  else if sz = 1 then .ok word
  else if sz = 2 then .ok long
  else .error .reservedCommand

/-- The command of a request, by `OP` and `SZ` (R52); anything else is reserved (R54). -/
def decodeCommand (r : Request) : Except RefusedReason Instr :=
  if zeroField r.cmd ≠ 0 then .error .reservedCommand
  else if opField r.cmd = 0 then withoutSize (szField r.cmd) (.guardRd r.addr)
  else if opField r.cmd = 1 then withoutSize (szField r.cmd) (.guardWr r.addr)
  else if opField r.cmd = 2 then bySize (szField r.cmd) (.memRdB r.addr) (.memRdW r.addr) (.memRdL r.addr)
  else if opField r.cmd = 3 then
    bySize (szField r.cmd) (.memWrB r.addr r.wdata) (.memWrW r.addr r.wdata) (.memWrL r.addr r.wdata)
  else if opField r.cmd = 4 then withoutSize (szField r.cmd) .idxGet
  else if opField r.cmd = 5 then bySize (szField r.cmd) .immGetB .immGetW .immGetL
  else if opField r.cmd = 6 then withoutSize (szField r.cmd) (.abort r.addr)
  else .error .reservedCommand

/-- `DA`, bit 15: 1 selects an address register (R56). -/
def extDa (w : Half) : Bool := w.getLsbD 15

/-- `REG`, bits 14:12 (R56). -/
def extReg (w : Half) : Fin 8 := (w.extractLsb' 12 3).toFin

/-- `WL`, bit 11: 1 selects the full 32-bit register (R56). -/
def extWl (w : Half) : Bool := w.getLsbD 11

/-- `IGN`, bits 10:8, not examined (R57). -/
def extIgn (w : Half) : BitVec 3 := w.extractLsb' 8 3

/-- `DISP8`, bits 7:0 (R56). -/
def extDisp (w : Half) : BitVec 8 := w.extractLsb' 0 8

/-- The variant of the extension word (R56): the four EXT16 rows of the opcode table. -/
def decodeExt (w : Half) : Instr :=
  match extDa w, extWl w with
  | false, false => .extDnW (extReg w) (extIgn w) (extDisp w)
  | false, true => .extDnL (extReg w) (extIgn w) (extDisp w)
  | true, false => .extAnW (extReg w) (extIgn w) (extDisp w)
  | true, true => .extAnL (extReg w) (extIgn w) (extDisp w)

/-- The extension word from its two stream bytes, the one at the lower address first (R37, R56). -/
def extOfBytes (b0 b1 : Byte) : Half := b0 ++ b1

/-- The decoder, total on requests and on stream words. -/
def decode (e : Encoding) : Except RefusedReason Instr :=
  match e with
  | .command r => decodeCommand r
  | .extension w => .ok (decodeExt w)

/-- A command byte from its fields, `ZERO` being 00 (R51). -/
def cmdByte (op : BitVec 4) (sz : BitVec 2) : BitVec 8 := op ++ (0#2) ++ sz

/-- An extension word from its fields (R56). -/
def encodeExt (da : Bool) (reg : Fin 8) (wl : Bool) (ign : BitVec 3) (disp : BitVec 8) : Half :=
  BitVec.ofBool da ++ BitVec.ofNat 3 reg.val ++ BitVec.ofBool wl ++ ign ++ disp

/-- The encoding of an instruction: the request of R52 with the fields it does not use zero (R50), or the extension
word of R56. -/
def encode (i : Instr) : Encoding :=
  match i with
  | .guardRd a => .command { cmd := cmdByte 0 0, addr := a, wdata := 0 }
  | .guardWr a => .command { cmd := cmdByte 1 0, addr := a, wdata := 0 }
  | .memRdB a => .command { cmd := cmdByte 2 0, addr := a, wdata := 0 }
  | .memRdW a => .command { cmd := cmdByte 2 1, addr := a, wdata := 0 }
  | .memRdL a => .command { cmd := cmdByte 2 2, addr := a, wdata := 0 }
  | .memWrB a v => .command { cmd := cmdByte 3 0, addr := a, wdata := v }
  | .memWrW a v => .command { cmd := cmdByte 3 1, addr := a, wdata := v }
  | .memWrL a v => .command { cmd := cmdByte 3 2, addr := a, wdata := v }
  | .idxGet => .command { cmd := cmdByte 4 0, addr := 0, wdata := 0 }
  | .immGetB => .command { cmd := cmdByte 5 0, addr := 0, wdata := 0 }
  | .immGetW => .command { cmd := cmdByte 5 1, addr := 0, wdata := 0 }
  | .immGetL => .command { cmd := cmdByte 5 2, addr := 0, wdata := 0 }
  | .abort a => .command { cmd := cmdByte 6 0, addr := a, wdata := 0 }
  | .extDnW r g d => .extension (encodeExt false r false g d)
  | .extDnL r g d => .extension (encodeExt false r true g d)
  | .extAnW r g d => .extension (encodeExt true r false g d)
  | .extAnL r g d => .extension (encodeExt true r true g d)

/-- What an instruction of the opcode table is laid out as, from its bits as the table numbers them: a command byte
(8 bits) with its operands zero, or an extension word (16 bits), whose byte at the lower address is bits 15:8. -/
def layOut (nbits w : Nat) : Option Encoding :=
  if nbits = 8 then some (.command { cmd := BitVec.ofNat 8 w, addr := 0, wdata := 0 })
  else if nbits = 16 then
    some (.extension (extOfBytes (BitVec.ofNat 8 (w / 256)) (BitVec.ofNat 8 w)))
  else none

/-- The instruction the decoder reads from an instruction whose bits are `w` (none where it refuses). -/
def decodeTableWord (nbits w : Nat) : Option Instr :=
  match layOut nbits w with
  | some e => (decode e).toOption
  | none => none

end Sys2Proof
end

