-- ==== Sys2Proof/Machine/State.lean ====
section
/-! DEFINITION. The state of the address-space guard block, as plain data: every field of spec/10_state.md (R10 to
R22), and two fields of the model's own, `host` (log 1) and `result` (log 2). Also the reasons a step can stop, and
the state after reset (R26, R130). -/

namespace Sys2Proof.Machine

/-- `MEM` (R10): (address, byte) pairs in one canonical form (`Memory.wf`): addresses strictly rising, and no entry
equal to what an unlisted address reads as (`fillByte`). -/
abbrev Memory := List Host.Cell

/-- `RUN` (R19): the two states of the Abort/Recovery Controller. -/
inductive RunState where
  | running
  | aborting
deriving DecidableEq, Repr

/-- The direction of an access (R70). -/
inductive Dir where
  | read
  | write
deriving DecidableEq, Repr

/-- The three fatal conditions (R110). -/
inductive AbortKind where
  /-- code 1: I/O-region access without pass-through -/
  | ioRegion
  /-- code 2: user-mode access, or access beyond allocated memory, when the guard is consulted -/
  | invalidAddress
  /-- code 3: the ABORT command -/
  | explicit
deriving DecidableEq, Repr

/-- `FAULT` (R21), with the field widths and codes of R21 and R110. -/
structure FaultRecord where
  valid : Bool
  kind : BitVec 3
  dir : BitVec 1
  addr : Word
deriving DecidableEq, Repr

/-- The externally visible events of R22. -/
inductive Event where
  /-- the error reporter's message (R122) -/
  | message (kind : AbortKind) (dir : Dir) (a24 : Word)
  /-- the controller's diagnostic line (R122) -/
  | diagLine (addr : Word)
  /-- the call of the file-cleanup collaborator (R123) -/
  | releaseFiles
  /-- the register dump, only with `DIAG = 1` (R126) -/
  | regDump (d a : Vector Word 8) (pc : Word) (sr : Half)
  /-- the non-local transfer to the Recovery Checkpoint (R23, R114) -/
  | transfer (code : Nat)
deriving DecidableEq, Repr

/-- `RESP` (R55): a field a command does not return is absent. -/
structure Response where
  rdata : Option Word
  permit : Option Bool
deriving DecidableEq, Repr

/-- What the host gets back from a command: the outcomes of R8 that leave the machine going. `ModelFault` is the
fourth; it is a fault of the step (log 8). -/
inductive CommandResult where
  | ok (resp : Response)
  | aborted (kind : AbortKind) (dir : Dir) (addr : Word)
  | refused (reason : RefusedReason)
deriving DecidableEq, Repr

/-- What the host may do between two commands (R6, R24, R131, R137). -/
inductive HostMove where
  /-- issue a command (R50) -/
  | request (r : Request)
  /-- HOST_RESTART(`pc0`) (R116) -/
  | restart (pc0 : Word)
  /-- write a data register (R12, R24) -/
  | writeD (i : Fin 8) (v : Word)
  /-- write an address register (R13, R24) -/
  | writeA (i : Fin 8) (v : Word)
  /-- write the status register (R14, R24) -/
  | writeSr (v : Half)
  /-- write the program counter (R11, R24) -/
  | writePc (v : Word)
  /-- write one byte of the Address Space (R10, R24) -/
  | writeMem (index : Nat) (b : Byte)
  /-- choose the configuration and create `MEM` (R131 steps 1 and 2, log 10) -/
  | configure (c : Config)
deriving DecidableEq, Repr

/-- Why the machine stops. -/
inductive Fault where
  /-- `ModelFault(SpanOutOfBuffer)` (R89): raised by MEM_RD.W, MEM_RD.L, MEM_WR.W, MEM_WR.L when the access is to be
  performed and its last byte lies at or above `MEM_ALOC`. Safe: the spec's own outcome, no effect, never cleared. -/
  | spanOutOfBuffer
  /-- `ModelFault(FetchOutOfBuffer)` (R90): raised by IDX_GET, IMM_GET.B, IMM_GET.W, IMM_GET.L when the stream bytes
  do not all lie below `MEM_ALOC`. Safe: the spec's own outcome, no effect, never cleared. -/
  | fetchOutOfBuffer
  /-- Raised by the host's move `writeMem` when the byte does not exist (R10: there is no `MEM[i]` for
  `i >= MEM_ALOC`). Safe: no instruction raises it (log 15). -/
  | hostWriteOutOfBuffer
deriving DecidableEq, Repr

/-- Why a step has no meaning. -/
inductive Refusal where
  /-- Raised by exec's arm of an instruction that has no meaning yet (none in this model). Safe. -/
  | notModelled (mnemonic : String)
  /-- Raised by the host's move `configure` with an ill-formed configuration (R5; U9 of 93_implementation_defined.md:
  not a configuration of this block). Safe: no instruction raises it (log 10). -/
  | illFormedConfig
  /-- Raised by the host's move `configure` after the first request, a refused one too (R139; U10 of
  93_implementation_defined.md: outside the model). Safe: no instruction raises it (log 10). -/
  | configAfterStart
deriving DecidableEq, Repr

/-- The state: the record of spec/10_state.md, and the model's own fields `host` and `result`. -/
structure State where
  /-- `MEM` (R10) -/
  mem : Memory
  /-- `PC` (R11) -/
  pc : Word
  /-- `D[0..7]` (R12) -/
  dreg : Vector Word 8
  /-- `A[0..7]` (R13) -/
  areg : Vector Word 8
  /-- `SR` (R14) -/
  sr : Half
  /-- `MEM_ALOC`, `ENV_TOP`, `IO_THROUGH`, `DIAG` (R15 to R18) -/
  cfg : Config
  /-- `RUN` (R19) -/
  run : RunState
  /-- `STATUS` (R20); the spec gives no width (log 13) -/
  status : Nat
  /-- `FAULT` (R21) -/
  fault : FaultRecord
  /-- `OUT` (R22), oldest event first -/
  out : List Event
  /-- DESIGN CHOICE (log 1): the host's coming moves, the next one first -/
  host : List HostMove
  /-- DESIGN CHOICE (log 2): what the last request gave the host, a refusal too (log 10), none before the first request -/
  result : Option CommandResult
deriving DecidableEq, Repr

/-- What a step answers. -/
abbrev StepOutcome := Host.Outcome State Fault Refusal

/-- The machine right after reset (R26, R130). The spec gives `RUN`, `STATUS`, `FAULT.VALID` and `OUT`. DESIGN
CHOICE, unsafe: every other value is the model's (log 3: `PC`, `D`, `A`, `SR`; log 4: the configuration; log 5: the
other `FAULT` fields; log 6: `MEM`). No step leads back to it: reset starts a run (log 16). -/
def State.reset : State :=
  { mem := []
    pc := 0
    dreg := Vector.replicate 8 0
    areg := Vector.replicate 8 0
    sr := 0
    cfg := Config.t0
    run := .running
    status := 0
    fault := { valid := false, kind := 0, dir := 0, addr := 0 }
    out := []
    host := []
    result := none }

end Sys2Proof.Machine
end

