-- ==== Sys2Proof/Machine/Ops.lean ====
section
/-! DEFINITION. The named operations over the state: bit-field helpers, memory (spec/20_memory.md R35 to R38), register
updates, completing or turning away a command (spec/00_scope.md R8), the abort sequence and the return from it
(spec/60_exceptions.md R112 to R116). -/

namespace Sys2Proof.Machine

/-! Bit fields (spec/00_scope.md section 6). -/

/-- `mask24(a)`: the low 24 bits of an address (R3). -/
def mask24 (a : Word) : Word := a &&& Config.addrMask

/-- `sext_8(v)`. -/
def sext8 (v : BitVec 8) : Word := v.signExtend 32

/-- `sext_16(v)`. -/
def sext16 (v : Half) : Word := v.signExtend 32

/-- `zext_8(v)`. -/
def zext8 (v : BitVec 8) : Word := v.setWidth 32

/-- The number of bytes of an access size (R41, R53). -/
def sizeBytes (sz : Size) : Nat :=
  match sz with
  | .byte => 1
  | .word => 2
  | .long => 4

/-! Memory. -/

/-- What a byte of `MEM` that nothing has written reads as. DESIGN CHOICE (log 6), unsafe: the spec gives no initial
contents (R26); zero is what the spec's own vectors start from. -/
def fillByte : Byte := 0

/-- One byte of `MEM` (R10). -/
def readByte (m : Memory) (a : Nat) : Byte :=
  match m with
  | [] => fillByte
  | (k, v) :: rest => if k = a then v else readByte rest a

/-- Put a cell in its place by address, replacing one of the same address. -/
def insertCell (m : Memory) (a : Nat) (b : Byte) : Memory :=
  match m with
  | [] => [(a, b)]
  | (k, v) :: rest =>
    if k < a then (k, v) :: insertCell rest a b
    else if k = a then (a, b) :: rest
    else (a, b) :: (k, v) :: rest

/-- `MEM[a] <- b`, keeping the canonical form: the fill value is stored by removing the cell. -/
def writeByte (m : Memory) (a : Nat) (b : Byte) : Memory :=
  if b = fillByte then m.filter (fun c => c.1 != a) else insertCell m a b

/-- The canonical form from address `lo` on: addresses strictly rising, no cell holding the fill value. -/
def wfFrom (lo : Nat) (m : Memory) : Bool :=
  match m with
  | [] => true
  | (k, v) :: rest => decide (lo ≤ k) && v != fillByte && wfFrom (k + 1) rest

/-- The canonical form of a memory. -/
def Memory.wf (m : Memory) : Bool := wfFrom 0 m

/-- Every listed cell lies below `n` (R10: `MEM` has no byte at or above `MEM_ALOC`). -/
def memBelow (m : Memory) (n : Nat) : Bool := m.all (fun c => decide (c.1 < n))

/-- `d <- (d << 8) | MEM[i]`, then the next `n` bytes in address order (R36, R82, R83). -/
def composeBE (m : Memory) (i n : Nat) (d : Word) : Word :=
  match n with
  | 0 => d
  | n + 1 => composeBE m (i + 1) n ((d <<< 8) ||| zext8 (readByte m i))

/-- The `n` bytes at `i`, most significant first, in the low bits of a word whose other bits are zero (R36). -/
def readBE (m : Memory) (i n : Nat) : Word := composeBE m i n 0

/-- Store the low `n` bytes of `v` at `i`, most significant first (R36, R84 to R86). -/
def writeBE (m : Memory) (i n : Nat) (v : Word) : Memory :=
  match n with
  | 0 => m
  | n + 1 => writeBE (writeByte m i (v.extractLsb' (8 * n) 8)) (i + 1) n v

/-! Registers. -/

/-- `D[i]` (R12). -/
def readD (s : State) (i : Fin 8) : Word := s.dreg.get i

/-- `A[i]` (R13). -/
def readA (s : State) (i : Fin 8) : Word := s.areg.get i

/-- `MEM <- m`. -/
def State.setMem (s : State) (m : Memory) : State := { s with mem := m }

/-- `PC <- v` (R11). -/
def State.setPc (s : State) (v : Word) : State := { s with pc := v }

/-- `D[i] <- v`, by the host (R24). -/
def State.setD (s : State) (i : Fin 8) (v : Word) : State := { s with dreg := s.dreg.set i.val v i.isLt }

/-- `A[i] <- v`, by the host (R24). -/
def State.setA (s : State) (i : Fin 8) (v : Word) : State := { s with areg := s.areg.set i.val v i.isLt }

/-- `SR <- v`, by the host (R24). -/
def State.setSr (s : State) (v : Half) : State := { s with sr := v }

/-- The configuration, by the host before the run (R131). -/
def State.setCfg (s : State) (c : Config) : State := { s with cfg := c }

/-- `RUN <- r` (R19). -/
def State.setRun (s : State) (r : RunState) : State := { s with run := r }

/-- What the host gets back from a command. -/
def State.setResult (s : State) (r : CommandResult) : State := { s with result := some r }

/-- The host's coming moves. -/
def State.setHost (s : State) (h : List HostMove) : State := { s with host := h }

/-! Outcomes of a command (R8). -/

/-- `RESP` of MEM_RD, IDX_GET, IMM_GET (R55). -/
def respData (v : Word) : Response := { rdata := some v, permit := none }

/-- `RESP` of GUARD_RD and GUARD_WR (R55). -/
def respPermit (p : Bool) : Response := { rdata := none, permit := some p }

/-- `RESP` of MEM_WR: no data (R55). -/
def respNone : Response := { rdata := none, permit := none }

/-- `return Ok(resp)` (R8). -/
def complete (resp : Response) (s : State) : StepOutcome := .next (s.setResult (.ok resp))

/-- `refuse(reason)` (R54, R115): the block's state is unchanged and the host is told; the machine goes on (log 2). -/
def turnAway (r : RefusedReason) (s : State) : StepOutcome := .next (s.setResult (.refused r))

/-- The hold of R115: while `RUN = Aborting` every command is refused. -/
def whenRunning (s : State) (body : StepOutcome) : StepOutcome :=
  match s.run with
  | .running => body
  | .aborting => turnAway .aborting s

/-! Taking an abort, and the return from it. -/

/-- The code of a kind in `FAULT.KIND` (R21, R110). -/
def AbortKind.code (k : AbortKind) : BitVec 3 :=
  match k with
  | .ioRegion => 1
  | .invalidAddress => 2
  | .explicit => 3

/-- The code of a direction in `FAULT.DIR` (R21). -/
def Dir.code (d : Dir) : BitVec 1 :=
  match d with
  | .read => 0
  | .write => 1

/-- The events of the abort sequence, in the order of R112. -/
def abortEvents (kind : AbortKind) (dir : Dir) (addr : Word) (s : State) : List Event :=
  (match kind with
    | .ioRegion => [Event.message kind dir addr]
    | .invalidAddress => [Event.message kind dir addr]
    | .explicit => [])
  ++ [Event.diagLine addr, Event.releaseFiles]
  ++ (if s.cfg.diag then [Event.regDump s.dreg s.areg s.pc s.sr] else [])
  ++ [Event.transfer Config.abortStatus]

/-- The abort sequence (R112): the events, `FAULT`, `STATUS`, `RUN`, as one transition; nothing else of the block
changes (R113). -/
def takeAbort (kind : AbortKind) (dir : Dir) (addr : Word) (s : State) : State :=
  { s with
    out := s.out ++ abortEvents kind dir addr s
    fault := { valid := true, kind := kind.code, dir := dir.code, addr := addr }
    status := Config.abortStatus
    run := .aborting
    result := some (.aborted kind dir addr) }

/-- `raise Abort(kind, dir, addr)`: the step ends with the abort taken (R8, R112). -/
def raiseAbort (kind : AbortKind) (dir : Dir) (addr : Word) (s : State) : StepOutcome :=
  .next (takeAbort kind dir addr s)

/-- HOST_RESTART(`pc0`) (R116): `RUN <- Running`, `PC <- pc0`, nothing else. -/
def hostRestart (pc0 : Word) (s : State) : State := (s.setRun .running).setPc pc0

end Sys2Proof.Machine
end

