-- ==== Sys2Proof/Machine/Abort.lean ====
section
/-! DEFINITION. The abort entry point (spec/43_abort_entry.md): ABORT. -/

namespace Sys2Proof.Machine

/-- ABORT (R100): the abort sequence with the address as given, not masked; the direction is recorded as read. It is
not privileged (R101). -/
def execAbort (addr : Word) (s : State) : StepOutcome := whenRunning s (raiseAbort .explicit .read addr s)

end Sys2Proof.Machine
end

