-- ==== Sys2Proof/Machine/Flags.lean ====
section
/-! DEFINITION. The status register. The block reads one bit of it, `S`, and writes none (spec/10_state.md R14): it has
no condition codes, so no command computes a flag. -/

namespace Sys2Proof.Machine

/-- `S = SR[13]`, mask 0x2000 (R14, log 11): true in supervisor mode. -/
def supervisor (s : State) : Bool := s.sr.getLsbD 13

end Sys2Proof.Machine
end

