-- ==== Sys2Proof/Machine/Guard.lean ====
section
/-! DEFINITION. The Access Guard (spec/40_access_guard.md): GUARD_RD, GUARD_WR. -/

namespace Sys2Proof.Machine

/-- What the guard determines about an address; on `fatal` its caller raises the abort of that kind and address, with
the direction of the access (R70, R75: the verdict itself does not depend on the direction). -/
inductive Verdict where
  | permit
  | substitute
  | fatal (kind : AbortKind) (a24 : Word)
deriving DecidableEq, Repr

/-- `Guard` (R70): mask, then the I/O-region test, which decides alone at and above `IO_BASE` (R73), then the
supervisor and allocation tests. Comparisons are unsigned. -/
def guardVerdict (addr : Word) (s : State) : Verdict :=
  if Config.ioBase ≤ mask24 addr then
    if s.cfg.ioThrough then .substitute else .fatal .ioRegion (mask24 addr)
  else if supervisor s = false ∨ s.cfg.memAloc ≤ mask24 addr then .fatal .invalidAddress (mask24 addr)
  else .permit

/-- A guard query of either direction (R71, R72): `PERMIT` is 1 exactly on `permit`. -/
def guardQuery (dir : Dir) (addr : Word) (s : State) : StepOutcome :=
  match guardVerdict addr s with
  | .permit => complete (respPermit true) s
  | .substitute => complete (respPermit false) s
  | .fatal kind a24 => raiseAbort kind dir a24 s

/-- GUARD_RD (R71). -/
def execGuardRd (addr : Word) (s : State) : StepOutcome := whenRunning s (guardQuery .read addr s)

/-- GUARD_WR (R72). -/
def execGuardWr (addr : Word) (s : State) : StepOutcome := whenRunning s (guardQuery .write addr s)

end Sys2Proof.Machine
end

