-- ==== Sys2Proof/Machine/Accessor.lean ====
section
/-! DEFINITION. The Memory Accessor (spec/41_memory_accessor.md): MEM_RD.B/.W/.L, MEM_WR.B/.W/.L. -/

namespace Sys2Proof.Machine

/-- What `Locate` determines (R80). -/
inductive Located where
  | index (i : Nat)
  | neutralised
  | fatal (kind : AbortKind) (a24 : Word)
  | spanFault
deriving DecidableEq, Repr

/-- The fast-path test on a masked address (R80): `ENV_TOP <= a24 < MEM_ALOC`, unsigned; `S` is not looked at. -/
def fastPath (a24 : Word) (s : State) : Bool := decide (s.cfg.envTop ≤ a24) && decide (a24 < s.cfg.memAloc)

/-- The span rule (R89) for an access that is to be performed. -/
def spanned (sz : Size) (a24 : Word) (s : State) : Located :=
  if a24.toNat + sizeBytes sz ≤ s.cfg.memAloc.toNat then .index a24.toNat else .spanFault

/-- `Locate` (R80): the address is masked before the range test; the guard is consulted on the slow path only. -/
def locate (sz : Size) (addr : Word) (s : State) : Located :=
  if fastPath (mask24 addr) s then spanned sz (mask24 addr) s
  else
    match guardVerdict (mask24 addr) s with
    | .substitute => .neutralised
    | .fatal kind a24 => .fatal kind a24
    | .permit => spanned sz (mask24 addr) s

/-- `MemRead` (R81 to R83): zero when neutralised, else the big-endian bytes, zero-extended. -/
def memRead (sz : Size) (addr : Word) (s : State) : StepOutcome :=
  match locate sz addr s with
  | .index i => complete (respData (readBE s.mem i (sizeBytes sz))) s
  | .neutralised => complete (respData 0) s
  | .fatal kind a24 => raiseAbort kind .read a24 s
  | .spanFault => .fault .spanOutOfBuffer

/-- `MemWrite` (R84 to R86): nothing when neutralised, else the low bytes of `WDATA`, most significant first. -/
def memWrite (sz : Size) (addr wdata : Word) (s : State) : StepOutcome :=
  match locate sz addr s with
  | .index i => complete respNone (s.setMem (writeBE s.mem i (sizeBytes sz) wdata))
  | .neutralised => complete respNone s
  | .fatal kind a24 => raiseAbort kind .write a24 s
  | .spanFault => .fault .spanOutOfBuffer

/-- MEM_RD.B (R81). -/
def execMemRdB (addr : Word) (s : State) : StepOutcome := whenRunning s (memRead .byte addr s)

/-- MEM_RD.W (R82). -/
def execMemRdW (addr : Word) (s : State) : StepOutcome := whenRunning s (memRead .word addr s)

/-- MEM_RD.L (R83). -/
def execMemRdL (addr : Word) (s : State) : StepOutcome := whenRunning s (memRead .long addr s)

/-- MEM_WR.B (R84). -/
def execMemWrB (addr wdata : Word) (s : State) : StepOutcome := whenRunning s (memWrite .byte addr wdata s)

/-- MEM_WR.W (R85). -/
def execMemWrW (addr wdata : Word) (s : State) : StepOutcome := whenRunning s (memWrite .word addr wdata s)

/-- MEM_WR.L (R86). -/
def execMemWrL (addr wdata : Word) (s : State) : StepOutcome := whenRunning s (memWrite .long addr wdata s)

end Sys2Proof.Machine
end

