-- ==== Sys2Proof/Machine/Operands.lean ====
section
/-! DEFINITION. The operand forms of the instruction stream: the fetch test, the brief extension word's index term
(spec/42_operand_decoder.md R90, R91) and the three immediate slots (spec/30_encoding.md R58). -/

namespace Sys2Proof.Machine

/-- The test of `Fetch(n)` (R90): the sum is of natural numbers, `PC` is not masked, nothing else is checked. -/
def fetchable (n : Nat) (s : State) : Bool := decide (s.pc.toNat + n ≤ s.cfg.memAloc.toNat)

/-- Byte `k` of the stream at `PC` (R90). -/
def streamByte (k : Nat) (s : State) : Byte := readByte s.mem (s.pc.toNat + k)

/-- `PC <- PC + n` (R11, R95). -/
def advancePc (n : Nat) (s : State) : State := s.setPc (s.pc + BitVec.ofNat 32 n)

/-- The brief extension word at `PC`, big-endian (R56). -/
def streamExt (s : State) : Half := extOfBytes (streamByte 0 s) (streamByte 1 s)

/-- The index value of the four variants of the extension word (R57's table, R91). -/
def indexValue (da : Bool) (reg : Fin 8) (wl : Bool) (s : State) : Word :=
  let x := if da then readA s reg else readD s reg
  if wl then x else sext16 (x.extractLsb' 0 16)

/-- The index term plus the sign-extended displacement, mod 2^32 (R91). -/
def indexSum (da : Bool) (reg : Fin 8) (wl : Bool) (disp : BitVec 8) (s : State) : Word :=
  indexValue da reg wl s + sext8 disp

/-- The bytes an immediate slot takes (R58, R59). -/
def slotBytes (sz : Size) : Nat :=
  match sz with
  | .byte => 2
  | .word => 2
  | .long => 4

/-- The value of the immediate slot at `PC` (R58): the byte's padding is ignored, byte and word are zero-extended. -/
def immValue (sz : Size) (s : State) : Word :=
  match sz with
  | .byte => zext8 (streamByte 1 s)
  | .word => readBE s.mem s.pc.toNat 2
  | .long => readBE s.mem s.pc.toNat 4

end Sys2Proof.Machine
end

