-- ==== Sys2Proof/Machine/Decoder.lean ====
section
/-! DEFINITION. The Operand Decoder (spec/42_operand_decoder.md): IDX_GET, IMM_GET.B/.W/.L, and the four variants of
the extension word that IDX_GET consumes (spec/30_encoding.md R56, R57). The decoder reads `MEM` at `PC` itself and
never consults the guard (R90, C10). -/

namespace Sys2Proof.Machine

/-- What IDX_GET does once it has read the extension word (R91): `PC <- PC + 2`, and the index sum is the result. -/
def indexed (da : Bool) (reg : Fin 8) (wl : Bool) (disp : BitVec 8) (s : State) : StepOutcome :=
  complete (respData (indexSum da reg wl disp s)) (advancePc 2 s)

/-- `Fetch(n)` (R90), then the rest of the command; `PC` and all other state are unchanged when it fails. -/
def afterFetch (n : Nat) (s : State) (body : StepOutcome) : StepOutcome :=
  if fetchable n s then body else .fault .fetchOutOfBuffer

/-- An immediate fetch of any width (R92 to R94): fetch, then advance, the value read at the old `PC` (C9). -/
def immediate (sz : Size) (s : State) : StepOutcome :=
  afterFetch (slotBytes sz) s (complete (respData (immValue sz s)) (advancePc (slotBytes sz) s))

/-- IDX_GET (R91). -/
def execIdxGet (s : State) : StepOutcome :=
  whenRunning s (afterFetch 2 s
    (indexed (extDa (streamExt s)) (extReg (streamExt s)) (extWl (streamExt s)) (extDisp (streamExt s)) s))

/-- IMM_GET.B (R92). -/
def execImmGetB (s : State) : StepOutcome := whenRunning s (immediate .byte s)

/-- IMM_GET.W (R93). -/
def execImmGetW (s : State) : StepOutcome := whenRunning s (immediate .word s)

/-- IMM_GET.L (R94). -/
def execImmGetL (s : State) : StepOutcome := whenRunning s (immediate .long s)

/-- EXT.Dn.W: the operand word of an IDX_GET that has been fetched at `PC`; `IGN` is not examined (R57, R91, log 9). -/
def execExtDnW (reg : Fin 8) (_ign : BitVec 3) (disp : BitVec 8) (s : State) : StepOutcome :=
  whenRunning s (indexed false reg false disp s)

/-- EXT.Dn.L (R57, R91, log 9). -/
def execExtDnL (reg : Fin 8) (_ign : BitVec 3) (disp : BitVec 8) (s : State) : StepOutcome :=
  whenRunning s (indexed false reg true disp s)

/-- EXT.An.W (R57, R91, log 9). -/
def execExtAnW (reg : Fin 8) (_ign : BitVec 3) (disp : BitVec 8) (s : State) : StepOutcome :=
  whenRunning s (indexed true reg false disp s)

/-- EXT.An.L (R57, R91, log 9). -/
def execExtAnL (reg : Fin 8) (_ign : BitVec 3) (disp : BitVec 8) (s : State) : StepOutcome :=
  whenRunning s (indexed true reg true disp s)

end Sys2Proof.Machine
end

