-- ==== Sys2Proof/Machine/Dispatch.lean ====
section
/-! DEFINITION. The dispatch: one arm per constructor of Instr, each a direct call of its meaning. -/

namespace Sys2Proof.Machine

def exec (i : Instr) (s : State) : Host.Outcome State Fault Refusal :=
  match i with
  | .guardRd addr => Sys2Proof.Machine.execGuardRd addr s
  | .guardWr addr => Sys2Proof.Machine.execGuardWr addr s
  | .memRdB addr => Sys2Proof.Machine.execMemRdB addr s
  | .memRdW addr => Sys2Proof.Machine.execMemRdW addr s
  | .memRdL addr => Sys2Proof.Machine.execMemRdL addr s
  | .memWrB addr wdata => Sys2Proof.Machine.execMemWrB addr wdata s
  | .memWrW addr wdata => Sys2Proof.Machine.execMemWrW addr wdata s
  | .memWrL addr wdata => Sys2Proof.Machine.execMemWrL addr wdata s
  | .idxGet => Sys2Proof.Machine.execIdxGet s
  | .immGetB => Sys2Proof.Machine.execImmGetB s
  | .immGetW => Sys2Proof.Machine.execImmGetW s
  | .immGetL => Sys2Proof.Machine.execImmGetL s
  | .abort addr => Sys2Proof.Machine.execAbort addr s
  | .extDnW reg ign disp => Sys2Proof.Machine.execExtDnW reg ign disp s
  | .extDnL reg ign disp => Sys2Proof.Machine.execExtDnL reg ign disp s
  | .extAnW reg ign disp => Sys2Proof.Machine.execExtAnW reg ign disp s
  | .extAnL reg ign disp => Sys2Proof.Machine.execExtAnL reg ign disp s

end Sys2Proof.Machine
end

