-- ==== Sys2Proof/Machine/Accept.lean ====
section
/-! DEFINITION. What the machine does with the host's next move (spec/00_scope.md R6, spec/70_reset_and_hazards.md
R137): accept a request (spec/60_exceptions.md R118), HOST_RESTART (R116), the host's writes between commands
(spec/10_state.md R24), the configuration before the first command (R131). -/

namespace Sys2Proof.Machine

/-- A request: a reserved command byte is refused first, whatever `RUN` is (R118 step 1); a decoded command is
executed, its own checks in the order of R118. -/
def acceptRequest (r : Request) (s : State) : StepOutcome :=
  match decodeCommand r with
  | .ok i => exec i s
  | .error e => turnAway e s

/-- The host writes one byte of the Address Space; `MEM` has no byte at or above `MEM_ALOC` (R10, log 15). -/
def hostWriteMem (index : Nat) (b : Byte) (s : State) : StepOutcome :=
  if index < s.cfg.memAloc.toNat then .next (s.setMem (writeByte s.mem index b))
  else .fault .hostWriteOutOfBuffer

/-- The host chooses the configuration and creates `MEM` (R131 steps 1 and 2), before the first command only (R24,
R139), and only a well-formed one (R5). DESIGN CHOICE (log 10): the move itself, and that EVERY request counts as the
first command, one refused as reserved too, since it sets `result`; R8 calls such a request no command of the block,
R118 counts its refusal among a command's checks, and the spec does not say which of the two closes the time in which
the configuration may be chosen. -/
def hostConfigure (c : Config) (s : State) : StepOutcome :=
  if s.result.isSome then .refused .configAfterStart
  else if c.wf then .next ((s.setCfg c).setMem [])
  else .refused .illFormedConfig

/-- One move of the host. -/
def takeMove (m : HostMove) (s : State) : StepOutcome :=
  match m with
  | .request r => acceptRequest r s
  | .restart pc0 => .next (hostRestart pc0 s)
  | .writeD i v => .next (s.setD i v)
  | .writeA i v => .next (s.setA i v)
  | .writeSr v => .next (s.setSr v)
  | .writePc v => .next (s.setPc v)
  | .writeMem index b => hostWriteMem index b s
  | .configure c => hostConfigure c s

/-- The next move leaves the list and is made; with no move left nothing happens (R138, log 7). -/
def takeNextMove (s : State) : StepOutcome :=
  match s.host with
  | [] => .next s
  | m :: rest => takeMove m (s.setHost rest)

/-- Store an extension word at `PC`, most significant byte first (R37), where `MEM` has the two bytes (R10). -/
def placeExt (x : Half) (s : State) : State :=
  if fetchable 2 s then
    s.setMem (writeByte (writeByte s.mem s.pc.toNat (x.extractLsb' 8 8)) (s.pc.toNat + 1) (x.extractLsb' 0 8))
  else s

/-- Put an instruction where the next step takes it (log 1): a command byte is the host's next request, its operands
zero; an extension word is stored at `PC`, and the host's next request is IDX_GET, which consumes it (log 9). -/
def placeWord (s : State) (nbits w : Nat) : State :=
  match layOut nbits w with
  | some (.command r) => s.setHost (.request r :: s.host)
  | some (.extension x) => (placeExt x s).setHost (.request { cmd := cmdByte 4 0, addr := 0, wdata := 0 } :: s.host)
  | none => s

end Sys2Proof.Machine
end

