-- ==== Sys2Proof/Machine/Report.lean ====
section
/-! DEFINITION. The fixed parts of the texts the events stand for (spec/60_exceptions.md R122): the wording, and the
address in hexadecimal. The rest of the texts is not given by the spec (N12) and is not modelled (log 14). -/

namespace Sys2Proof.Machine

/-- One upper-case hexadecimal digit. -/
def hexDigit (d : Nat) : Char :=
  match d with
  | 0 => '0' | 1 => '1' | 2 => '2' | 3 => '3' | 4 => '4' | 5 => '5' | 6 => '6' | 7 => '7'
  | 8 => '8' | 9 => '9' | 10 => 'A' | 11 => 'B' | 12 => 'C' | 13 => 'D' | 14 => 'E' | _ => 'F'

/-- The low `n` hexadecimal digits of `v`, most significant first. -/
def hexDigits (n v : Nat) : List Char :=
  match n with
  | 0 => []
  | n + 1 => hexDigits n (v / 16) ++ [hexDigit (v % 16)]

/-- The address in an event's text: 6 digits of the masked address in the message, 8 digits in the diagnostic line
(R122). -/
def eventHex (e : Event) : List Char :=
  match e with
  | .message _ _ a24 => hexDigits 6 a24.toNat
  | .diagLine addr => hexDigits 8 addr.toNat
  | .releaseFiles => []
  | .regDump _ _ _ _ => []
  | .transfer _ => []

/-- The words the spec fixes of a message: the operation for an I/O-region fault, the whole phrase for an invalid
address (R122). -/
def messageWords (kind : AbortKind) (dir : Dir) : Option String :=
  match kind, dir with
  | .ioRegion, .read => some "read"
  | .ioRegion, .write => some "write"
  | .invalidAddress, .read => some "invalid address for read"
  | .invalidAddress, .write => some "invalid address for write"
  | .explicit, _ => none

end Sys2Proof.Machine
end

