-- ==== Sys2Proof/Safety.lean ====
section
/-! DEFINITION. The terms claims use: the four regions of the address map (spec/20_memory.md R32), when an access is
performed, and the invariant of the machine: the canonical form of memory, the bounds of `MEM` (R10), a well-formed
configuration (R5), and what `FAULT`, `STATUS`, `RUN` and `OUT` may hold together (R19 to R22). -/

namespace Sys2Proof.Machine

/-- The regions of R32. -/
inductive Region where
  | low
  | ram
  | hole
  | io
deriving DecidableEq, Repr

/-- The region of a masked address (R32). -/
def regionOf (c : Config) (a24 : Word) : Region :=
  if Config.ioBase ≤ a24 then .io
  else if c.memAloc ≤ a24 then .hole
  else if c.envTop ≤ a24 then .ram
  else .low

/-- `MEM` is in its canonical form and has no byte at or above `MEM_ALOC` (R10). -/
def memInv (s : State) : Bool := Memory.wf s.mem && memBelow s.mem s.cfg.memAloc.toNat

/-- The legal codes of `FAULT.KIND` with what goes with each (R21, R110): an `Explicit` fault has direction 0, a guard
fault a masked address. -/
def faultLegal (f : FaultRecord) : Bool :=
  (f.kind == AbortKind.explicit.code && f.dir == 0)
  || ((f.kind == AbortKind.ioRegion.code || f.kind == AbortKind.invalidAddress.code) && f.addr == mask24 f.addr)

/-- The abort controller's fields together (R19 to R22): with no fault on record nothing has happened; with one,
`STATUS` is 2, the record is legal and the last event is the transfer to the checkpoint. -/
def abortInv (s : State) : Bool :=
  (s.fault.valid && faultLegal s.fault && s.status == Config.abortStatus
    && s.out.getLast? == some (Event.transfer Config.abortStatus))
  || (!s.fault.valid && s.status == 0 && s.run == .running && s.out == [])

/-- How many aborts the trace holds: one `ReleaseFiles` each (R123). -/
def releases (out : List Event) : Nat := out.count .releaseFiles

/-- Every abort on the trace released the files once and transferred once (R112, R123). -/
def traceInv (s : State) : Bool := releases s.out == s.out.count (.transfer Config.abortStatus)

/-- The invariant of the machine. -/
def machineInv (s : State) : Bool := memInv s && s.cfg.wf && abortInv s && traceInv s

/-- The access at `addr` is to be performed (R33, R80): it starts in the fast-path range, or below the I/O region and
below `MEM_ALOC` in supervisor mode, where the guard permits it. -/
def performed (addr : Word) (s : State) : Bool :=
  decide (mask24 addr < s.cfg.memAloc)
    && (decide (s.cfg.envTop ≤ mask24 addr) || (decide (mask24 addr < Config.ioBase) && supervisor s))

/-- All bytes of an access of this size at `addr` lie below `MEM_ALOC` (R89). -/
def fits (sz : Size) (addr : Word) (s : State) : Bool :=
  decide ((mask24 addr).toNat + sizeBytes sz ≤ s.cfg.memAloc.toNat)

/-- MEM_RD of a size: MEM_RD.B, MEM_RD.W, MEM_RD.L. -/
def memRdOf (sz : Size) (addr : Word) : Instr :=
  match sz with
  | .byte => .memRdB addr
  | .word => .memRdW addr
  | .long => .memRdL addr

/-- MEM_WR of a size: MEM_WR.B, MEM_WR.W, MEM_WR.L. -/
def memWrOf (sz : Size) (addr wdata : Word) : Instr :=
  match sz with
  | .byte => .memWrB addr wdata
  | .word => .memWrW addr wdata
  | .long => .memWrL addr wdata

/-- IMM_GET of a size: IMM_GET.B, IMM_GET.W, IMM_GET.L. -/
def immGetOf (sz : Size) : Instr :=
  match sz with
  | .byte => .immGetB
  | .word => .immGetW
  | .long => .immGetL

/-- The low bytes of a value that an access of this size moves, zero-extended. -/
def lowBytes (sz : Size) (v : Word) : Word :=
  match sz with
  | .byte => (v.extractLsb' 0 8).setWidth 32
  | .word => (v.extractLsb' 0 16).setWidth 32
  | .long => v

/-- The stream bytes a decoder command consumes (R59, R95); none for every other instruction. -/
def consumed (i : Instr) : Option Nat :=
  match i with
  | .idxGet => some 2
  | .immGetB => some 2
  | .immGetW => some 2
  | .immGetL => some 4
  | _ => none

/-- The instruction is an operand word (an EXT16 row of the opcode table), not a command. -/
def isOperandWord (i : Instr) : Bool :=
  match i with
  | .extDnW _ _ _ => true
  | .extDnL _ _ _ => true
  | .extAnW _ _ _ => true
  | .extAnL _ _ _ => true
  | _ => false

/-- The instruction is a MEM_WR. -/
def isStore (i : Instr) : Bool :=
  match i with
  | .memWrB _ _ => true
  | .memWrW _ _ => true
  | .memWrL _ _ => true
  | _ => false

/-- The direction and the address of a guard query or a guarded access (R70, R80); none for every other instruction. -/
def accessOf (i : Instr) : Option (Dir × Word) :=
  match i with
  | .guardRd addr => some (.read, addr)
  | .guardWr addr => some (.write, addr)
  | .memRdB addr => some (.read, addr)
  | .memRdW addr => some (.read, addr)
  | .memRdL addr => some (.read, addr)
  | .memWrB addr _ => some (.write, addr)
  | .memWrW addr _ => some (.write, addr)
  | .memWrL addr _ => some (.write, addr)
  | _ => none

/-- The event is the register dump (R126). -/
def isRegDump (e : Event) : Bool :=
  match e with
  | .regDump _ _ _ _ => true
  | _ => false

/-- The state's last command ended in an abort. -/
def wasAborted (s : State) : Bool :=
  match s.result with
  | some (.aborted _ _ _) => true
  | _ => false

/-- What a memory holds as far as user mode may see it through the accessor: the bytes from `ENV_TOP` up (R33). -/
def agreeFrom (n : Nat) (m m' : Memory) : Prop := ∀ a, n ≤ a → readByte m a = readByte m' a

end Sys2Proof.Machine
end

