-- ==== Sys2Proof/Certificates/Slice0/Obligations.lean ====
section
/-! DEFINITION. The statements for the provers. Where a statement rests on a choice of the model (a log entry), its
docstring names the entry. -/

open Sys2Proof Sys2Proof.Machine

/-! Encoding. -/

/-- A few command bytes of R52 and extension words of R56, written out from their fields, decode to the instructions
they stand for, whatever the request's other fields hold. -/
def Obligations.CommandWordsDecode : Prop :=
  ∀ a v : Word,
    decodeCommand { cmd := 0b00010000, addr := a, wdata := v } = .ok (.guardWr a)
    ∧ decodeCommand { cmd := 0b00100001, addr := a, wdata := v } = .ok (.memRdW a)
    ∧ decodeCommand { cmd := 0b00110010, addr := a, wdata := v } = .ok (.memWrL a v)
    ∧ decodeCommand { cmd := 0b01000000, addr := a, wdata := v } = .ok .idxGet
    ∧ decodeCommand { cmd := 0b01010001, addr := a, wdata := v } = .ok .immGetW
    ∧ decodeCommand { cmd := 0b01100000, addr := a, wdata := v } = .ok (.abort a)
    ∧ decodeExt 0b1000100011111110 = .extAnL 0 0 0b11111110
    ∧ decodeExt 0b0011111000000001 = .extDnL 3 6 1

/-- Decoding the encoding of any well-formed instruction, of both formats, gives that instruction back. -/
def Obligations.DecodeOfEncodeIsTheInstruction : Prop :=
  ∀ i : Instr, i.wf = true → decode (encode i) = .ok i

/-- Every word has one meaning: an extension word encodes back to itself, and a decoded request to one with the same
command byte and the operands the command uses. -/
def Obligations.DecodedWordsEncodeBack : Prop :=
  (∀ w : Half, encode (decodeExt w) = .extension w)
  ∧ ∀ (r : Request) (i : Instr), decodeCommand r = .ok i →
      ∃ r' : Request, encode i = .command r' ∧ r'.cmd = r.cmd ∧ decodeCommand r' = .ok i

/-- The reserved command bytes are those of R54's list, 243 in number; the decoder refuses each, and the step on such
a request changes nothing of the block. That the refusal is a next state that reports it is the model's choice
(log 2). -/
def Obligations.ReservedCommandBytesAreRefused : Prop :=
  (∀ r : Request, decodeCommand r = .error .reservedCommand ↔
      (7 ≤ (opField r.cmd).toNat ∨ zeroField r.cmd ≠ 0 ∨ szField r.cmd = 3
        ∨ (szField r.cmd ≠ 0 ∧ (opField r.cmd).toNat ∈ [0, 1, 4, 6])))
  ∧ (∀ r : Request, decodeCommand r = .error .reservedCommand ↔ commandDefined r.cmd = false)
  ∧ ((List.range 256).filter (fun n => !commandDefined (BitVec.ofNat 8 n))).length = 243
  ∧ (∀ (s : State) (r : Request) (rest : List HostMove), s.host = .request r :: rest →
      commandDefined r.cmd = false →
      step s = .next { s with host := rest, result := some (.refused .reservedCommand) })

/-! The step. -/

/-- A step whose next host move is a request that decodes to an instruction is exec of that instruction, on the state
from whose list the request has been taken (log 1: the host's moves stand in a list of State). -/
def Obligations.StepRunsTheDecodedCommand : Prop :=
  ∀ (s : State) (r : Request) (rest : List HostMove) (i : Instr),
    s.host = .request r :: rest → decodeCommand r = .ok i → step s = exec i { s with host := rest }

/-- A step on an IDX_GET request is exec of the operand word that stands at `PC`, and exec of the word ignores what
stands in memory (log 9: an operand word as an instruction is what IDX_GET does after reading it). -/
def Obligations.IdxGetRunsItsExtensionWord : Prop :=
  ∀ (s : State) (r : Request) (rest : List HostMove), s.host = .request r :: rest → r.cmd = 0x40 →
    s.run = .running → s.pc.toNat + 2 ≤ s.cfg.memAloc.toNat →
    step s = exec (decodeExt (readByte s.mem s.pc.toNat ++ readByte s.mem (s.pc.toNat + 1))) { s with host := rest }

/-- The host's writes between commands change their own field only, and a step with no move left changes nothing
(log 1, log 7, log 15). -/
def Obligations.HostMovesWriteOnlyTheirField : Prop :=
  ∀ (s : State) (rest : List HostMove),
    (∀ i v, s.host = .writeD i v :: rest →
      step s = .next { s with dreg := s.dreg.set i.val v i.isLt, host := rest })
    ∧ (∀ i v, s.host = .writeA i v :: rest →
      step s = .next { s with areg := s.areg.set i.val v i.isLt, host := rest })
    ∧ (∀ v, s.host = .writeSr v :: rest → step s = .next { s with sr := v, host := rest })
    ∧ (∀ v, s.host = .writePc v :: rest → step s = .next { s with pc := v, host := rest })
    ∧ (∀ a b, s.host = .writeMem a b :: rest → a < s.cfg.memAloc.toNat →
      ∃ t, step s = .next t ∧ t = { s with mem := t.mem, host := rest }
        ∧ ∀ c, readByte t.mem c = if c = a then b else readByte s.mem c)
    ∧ (∀ a b, s.host = .writeMem a b :: rest → s.cfg.memAloc.toNat ≤ a → step s = .fault .hostWriteOutOfBuffer)
    ∧ (s.host = [] → step s = .next s)

/-- HOST_RESTART(`pc0`) sets `RUN` to `Running` and `PC` to `pc0` and changes nothing else, in every state. It rests on
R116's sentence "`RUN <- Running`; `PC <- pc0`. Nothing else changes", which the spec marks as its own decision D15. -/
def Obligations.HostRestartSetsRunAndPcOnly : Prop :=
  ∀ (s : State) (pc0 : Word) (rest : List HostMove), s.host = .restart pc0 :: rest →
    step s = .next { s with run := .running, pc := pc0, host := rest }

/-- Once a request has been answered, a refused one too, no step changes the configuration; before that only
the host's `configure` does, and only to a well-formed one (log 10). -/
def Obligations.ConfigurationIsStableDuringARun : Prop :=
  ∀ s t : State, step s = .next t →
    (s.result.isSome = true → t.cfg = s.cfg ∧ t.result.isSome = true)
    ∧ (t.cfg = s.cfg ∨ ∃ c rest, s.host = .configure c :: rest ∧ t.cfg = c ∧ c.wf = true)

/-- The host's `configure` move: before the first request it sets a well-formed configuration and creates `MEM` with
nothing listed; an ill-formed one, and one after the first request, a refused one too, stop by
name (log 10: the model's choice). -/
def Obligations.ConfigureActsBeforeTheFirstCommandOnly : Prop :=
  ∀ (s : State) (c : Config) (rest : List HostMove), s.host = .configure c :: rest →
    (s.result = none → c.wf = true → step s = .next { s with cfg := c, mem := [], host := rest })
    ∧ (s.result = none → c.wf = false → step s = .refused .illFormedConfig)
    ∧ (∀ r, s.result = some r → step s = .refused .configAfterStart)

/-! Reset and the invariant. -/

/-- What reset leaves of the block's own state (R26, R130): `RUN`, `STATUS`, `FAULT.VALID`, `OUT`. -/
def Obligations.ResetLeavesTheControllerRunning : Prop :=
  State.reset.run = .running ∧ State.reset.status = 0 ∧ State.reset.fault.valid = false ∧ State.reset.out = []

/-- The invariant holds at reset. It rests on the reset configuration and memory the model names (log 4, log 6). -/
def Obligations.ResetSatisfiesTheInvariant : Prop := machineInv State.reset = true

/-- From every state that meets the invariant every step that answers a next state keeps it: memory stays in its
canonical form and below `MEM_ALOC`, the configuration well formed, the fault record legal, `STATUS` 0 or 2 with it,
the last event a transfer, and one `ReleaseFiles` per transfer. -/
def Obligations.EveryStepKeepsTheInvariant : Prop :=
  ∀ s t : State, machineInv s = true → step s = .next t → machineInv t = true

/-- Two memories in canonical form that read alike at every address are the same data (the model's representation of
`MEM`, log 6). -/
def Obligations.CanonicalMemoriesThatReadAlikeAreEqual : Prop :=
  ∀ m m' : Memory, Memory.wf m = true → Memory.wf m' = true → (∀ a, readByte m a = readByte m' a) → m = m'

/-! The Access Guard. -/

/-- R70, R73: the guard, asked by GUARD_RD and by GUARD_WR: the I/O test on the masked address decides first and alone,
then one disjunction of the supervisor and the allocation test; an abort records the direction and the masked
address. -/
def Obligations.GuardDecidesByRegionThenModeAndBound : Prop :=
  ∀ (s : State) (addr : Word), s.run = .running →
    (0xC00000 ≤ addr &&& 0x00FFFFFF → s.cfg.ioThrough = true →
      exec (.guardRd addr) s = .next { s with result := some (.ok (respPermit false)) }
      ∧ exec (.guardWr addr) s = .next { s with result := some (.ok (respPermit false)) })
    ∧ (0xC00000 ≤ addr &&& 0x00FFFFFF → s.cfg.ioThrough = false →
      exec (.guardRd addr) s = .next (takeAbort .ioRegion .read (addr &&& 0x00FFFFFF) s)
      ∧ exec (.guardWr addr) s = .next (takeAbort .ioRegion .write (addr &&& 0x00FFFFFF) s))
    ∧ (addr &&& 0x00FFFFFF < 0xC00000 → (supervisor s = false ∨ s.cfg.memAloc ≤ addr &&& 0x00FFFFFF) →
      exec (.guardRd addr) s = .next (takeAbort .invalidAddress .read (addr &&& 0x00FFFFFF) s)
      ∧ exec (.guardWr addr) s = .next (takeAbort .invalidAddress .write (addr &&& 0x00FFFFFF) s))
    ∧ (addr &&& 0x00FFFFFF < 0xC00000 → supervisor s = true → addr &&& 0x00FFFFFF < s.cfg.memAloc →
      exec (.guardRd addr) s = .next { s with result := some (.ok (respPermit true)) }
      ∧ exec (.guardWr addr) s = .next { s with result := some (.ok (respPermit true)) })

/-- The two directions give the same verdict; on an abort the states differ only in the direction recorded in
`FAULT.DIR`, in the `Message` event and in the outcome reported. It is R75, which the spec marks as derived from
R70. -/
def Obligations.GuardVerdictIgnoresTheDirection : Prop :=
  ∀ (s : State) (addr : Word), s.run = .running →
    (∃ p, exec (.guardRd addr) s = .next { s with result := some (.ok (respPermit p)) }
      ∧ exec (.guardWr addr) s = .next { s with result := some (.ok (respPermit p)) })
    ∨ ∃ (kind : AbortKind) (a24 : Word) (t : State), exec (.guardRd addr) s = .next t
        ∧ t.result = some (.aborted kind .read a24) ∧ t.fault.dir = 0
        ∧ (∃ rest, t.out = s.out ++ Event.message kind .read a24 :: rest
          ∧ exec (.guardWr addr) s = .next
              { t with
                fault := { t.fault with dir := 1 }
                out := s.out ++ Event.message kind .write a24 :: rest
                result := some (.aborted kind .write a24) })

/-! The Memory Accessor. -/

/-- The verdict of a guarded access by the region of the masked start address, `S` and `IO_THROUGH`; a performed
access is subject to the span rule. It is R33, which the spec marks as derived from R70 and R80. -/
def Obligations.AccessVerdictByRegion : Prop :=
  ∀ (s : State) (sz : Size) (addr wdata : Word), s.run = .running → s.cfg.wf = true →
    match regionOf s.cfg (mask24 addr), supervisor s, s.cfg.ioThrough with
    | .low, false, _ =>
      exec (memRdOf sz addr) s = .next (takeAbort .invalidAddress .read (mask24 addr) s)
      ∧ exec (memWrOf sz addr wdata) s = .next (takeAbort .invalidAddress .write (mask24 addr) s)
    | .hole, _, _ =>
      exec (memRdOf sz addr) s = .next (takeAbort .invalidAddress .read (mask24 addr) s)
      ∧ exec (memWrOf sz addr wdata) s = .next (takeAbort .invalidAddress .write (mask24 addr) s)
    | .io, _, false =>
      exec (memRdOf sz addr) s = .next (takeAbort .ioRegion .read (mask24 addr) s)
      ∧ exec (memWrOf sz addr wdata) s = .next (takeAbort .ioRegion .write (mask24 addr) s)
    | .io, _, true =>
      exec (memRdOf sz addr) s = .next { s with result := some (.ok (respData 0)) }
      ∧ exec (memWrOf sz addr wdata) s = .next { s with result := some (.ok respNone) }
    | _, _, _ =>
      if (mask24 addr).toNat + sizeBytes sz ≤ s.cfg.memAloc.toNat then
        exec (memRdOf sz addr) s
            = .next { s with result := some (.ok (respData (readBE s.mem (mask24 addr).toNat (sizeBytes sz)))) }
        ∧ exec (memWrOf sz addr wdata) s
            = .next { s with
                mem := writeBE s.mem (mask24 addr).toNat (sizeBytes sz) wdata
                result := some (.ok respNone) }
      else
        exec (memRdOf sz addr) s = .fault .spanOutOfBuffer
        ∧ exec (memWrOf sz addr wdata) s = .fault .spanOutOfBuffer

/-- MEM_RD.B, MEM_RD.W, MEM_RD.L complete when the access is performed and fits: the bytes at the masked address, most
significant first, zero-extended; nothing else changes (R81 to R83). -/
def Obligations.MemReadReturnsTheBytes : Prop :=
  ∀ (s : State) (addr : Word) (i : Nat), s.run = .running → performed addr s = true → i = (mask24 addr).toNat →
    exec (.memRdB addr) s = .next { s with result := some (.ok (respData ((readByte s.mem i).setWidth 32))) }
    ∧ (i + 2 ≤ s.cfg.memAloc.toNat →
      exec (.memRdW addr) s = .next { s with
        result := some (.ok (respData ((readByte s.mem i ++ readByte s.mem (i + 1)).setWidth 32))) })
    ∧ (i + 4 ≤ s.cfg.memAloc.toNat →
      exec (.memRdL addr) s = .next { s with
        result := some (.ok (respData (readByte s.mem i ++ readByte s.mem (i + 1)
          ++ readByte s.mem (i + 2) ++ readByte s.mem (i + 3)))) })

/-- MEM_WR.B, MEM_WR.W, MEM_WR.L complete when the access is performed and fits: the low bytes of `WDATA`, most
significant first, at the masked address; no other byte and no other field changes (R84 to R86). -/
def Obligations.MemWriteStoresTheBytes : Prop :=
  ∀ (s : State) (addr wdata : Word) (i : Nat), s.run = .running → performed addr s = true → i = (mask24 addr).toNat →
    (∃ t, exec (.memWrB addr wdata) s = .next t
      ∧ t = { s with mem := t.mem, result := some (.ok respNone) }
      ∧ ∀ a, readByte t.mem a = if a = i then wdata.extractLsb' 0 8 else readByte s.mem a)
    ∧ (i + 2 ≤ s.cfg.memAloc.toNat → ∃ t, exec (.memWrW addr wdata) s = .next t
      ∧ t = { s with mem := t.mem, result := some (.ok respNone) }
      ∧ ∀ a, readByte t.mem a =
          if a = i then wdata.extractLsb' 8 8 else if a = i + 1 then wdata.extractLsb' 0 8 else readByte s.mem a)
    ∧ (i + 4 ≤ s.cfg.memAloc.toNat → ∃ t, exec (.memWrL addr wdata) s = .next t
      ∧ t = { s with mem := t.mem, result := some (.ok respNone) }
      ∧ ∀ a, readByte t.mem a =
          if a = i then wdata.extractLsb' 24 8 else if a = i + 1 then wdata.extractLsb' 16 8
          else if a = i + 2 then wdata.extractLsb' 8 8 else if a = i + 3 then wdata.extractLsb' 0 8
          else readByte s.mem a)

/-- With pass-through on, a read of the I/O region returns 0 and a write of it stores nothing, in either mode and for
every size, with no span fault (R42, R43, R80, R89). -/
def Obligations.PassThroughNeutralisesTheIoRegion : Prop :=
  ∀ (s : State) (sz : Size) (addr wdata : Word), s.run = .running → s.cfg.wf = true → s.cfg.ioThrough = true →
    0xC00000 ≤ addr &&& 0x00FFFFFF →
    exec (memRdOf sz addr) s = .next { s with result := some (.ok (respData 0)) }
    ∧ exec (memWrOf sz addr wdata) s = .next { s with result := some (.ok respNone) }

/-- An access that is to be performed and does not fit ends in `ModelFault(SpanOutOfBuffer)`, and no other access
does; so only a word at the last byte, or a long within the last three bytes, of `MEM`. It is R89, which the spec marks
as its own decision D9. -/
def Obligations.SpanPastTheBufferFaults : Prop :=
  ∀ (s : State) (sz : Size) (addr wdata : Word), s.run = .running →
    (exec (memRdOf sz addr) s = .fault .spanOutOfBuffer ↔
      performed addr s = true ∧ s.cfg.memAloc.toNat < (mask24 addr).toNat + sizeBytes sz)
    ∧ (exec (memWrOf sz addr wdata) s = .fault .spanOutOfBuffer ↔
      performed addr s = true ∧ s.cfg.memAloc.toNat < (mask24 addr).toNat + sizeBytes sz)
    ∧ (exec (memRdOf sz addr) s = .fault .spanOutOfBuffer →
      (sz = .word ∧ (mask24 addr).toNat + 1 = s.cfg.memAloc.toNat)
      ∨ (sz = .long ∧ s.cfg.memAloc.toNat ≤ (mask24 addr).toNat + 3 ∧ (mask24 addr).toNat < s.cfg.memAloc.toNat))

/-- A write that is performed and fits, then a read of the same size at the same address, returns the low bytes
of the value; it changes exactly the bytes of the access; with pass-through the I/O region keeps nothing. It is R88,
which the spec marks as derived from R81 to R86. -/
def Obligations.ReadAfterWriteReturnsTheValue : Prop :=
  ∀ (s : State) (sz : Size) (addr v : Word), s.run = .running →
    (performed addr s = true → fits sz addr s = true →
      ∃ t, exec (memWrOf sz addr v) s = .next t
        ∧ exec (memRdOf sz addr) t = .next { t with result := some (.ok (respData (lowBytes sz v))) }
        ∧ ∀ a, (a < (mask24 addr).toNat ∨ (mask24 addr).toNat + sizeBytes sz ≤ a) →
            readByte t.mem a = readByte s.mem a)
    ∧ (s.cfg.wf = true → s.cfg.ioThrough = true → 0xC00000 ≤ mask24 addr →
      ∃ t, exec (memWrOf sz addr v) s = .next t ∧ t.mem = s.mem
        ∧ exec (memRdOf sz addr) t = .next { t with result := some (.ok (respData 0)) })

/-- A value of `n` bytes at `a` occupies `MEM[a]` to `MEM[a+n-1]` with the most significant byte first, for
writes and for reads (R36). That a write takes the low `n` bytes of `WDATA` is the spec's own decision D8, that a read is
zero-extended its own decision D7, both followed as written (log 12). -/
def Obligations.DataIsBigEndian : Prop :=
  ∀ (s : State) (sz : Size) (addr v : Word), s.run = .running → performed addr s = true → fits sz addr s = true →
    (∃ t, exec (memWrOf sz addr v) s = .next t
      ∧ ∀ k, k < sizeBytes sz →
          readByte t.mem ((mask24 addr).toNat + k) = v.extractLsb' (8 * (sizeBytes sz - 1 - k)) 8)
    ∧ (∃ d, exec (memRdOf sz addr) s = .next { s with result := some (.ok (respData d)) }
      ∧ d = lowBytes sz d
      ∧ ∀ k, k < sizeBytes sz →
          d.extractLsb' (8 * (sizeBytes sz - 1 - k)) 8 = readByte s.mem ((mask24 addr).toNat + k))

/-- After a long write of `v` at `a`, byte and word reads inside it see its bytes. It is R38, which the spec marks as
derived from R36. -/
def Obligations.MixedWidthsSeeTheSameBytes : Prop :=
  ∀ (s : State) (addr v : Word), s.run = .running → s.cfg.wf = true → performed addr s = true →
    fits .long addr s = true →
    ∃ t, exec (.memWrL addr v) s = .next t
      ∧ (∀ i : Nat, i < 4 → exec (.memRdB (addr + BitVec.ofNat 32 i)) t
          = .next { t with result := some (.ok (respData ((v.extractLsb' (24 - 8 * i) 8).setWidth 32))) })
      ∧ exec (.memRdW addr) t = .next { t with result := some (.ok (respData ((v.extractLsb' 16 16).setWidth 32))) }
      ∧ exec (.memRdW (addr + 1)) t
          = .next { t with result := some (.ok (respData ((v.extractLsb' 8 16).setWidth 32))) }
      ∧ exec (.memRdW (addr + 2)) t
          = .next { t with result := some (.ok (respData ((v.extractLsb' 0 16).setWidth 32))) }

/-- Guarded accesses and guard queries at `a` and at `a + k * 0x1000000` do the same; the decoder's use of `PC` is not
masked: a `PC` at or above 2^24 is outside `MEM`. It is R31; that the accessor masks before its range test is the spec's
own decision D6, followed as written (log 12). -/
def Obligations.MaskedAddressesAreAliases : Prop :=
  ∀ (s : State) (sz : Size) (addr v : Word) (k : Nat),
    exec (.guardRd (addr + BitVec.ofNat 32 (k * 0x1000000))) s = exec (.guardRd addr) s
    ∧ exec (.guardWr (addr + BitVec.ofNat 32 (k * 0x1000000))) s = exec (.guardWr addr) s
    ∧ exec (memRdOf sz (addr + BitVec.ofNat 32 (k * 0x1000000))) s = exec (memRdOf sz addr) s
    ∧ exec (memWrOf sz (addr + BitVec.ofNat 32 (k * 0x1000000)) v) s = exec (memWrOf sz addr v) s
    ∧ (s.run = .running → s.cfg.wf = true → 0x1000000 ≤ s.pc.toNat →
      exec .idxGet s = .fault .fetchOutOfBuffer ∧ exec (immGetOf sz) s = .fault .fetchOutOfBuffer)

/-! Isolation. -/

/-- In user mode no instruction changes a byte of LOW (R120). `S` is `SR[13]`, which the spec takes from general
knowledge (log 11). -/
def Obligations.UserModeNeverWritesLow : Prop :=
  ∀ (i : Instr) (s t : State), s.sr.getLsbD 13 = false → exec i s = .next t →
    ∀ a, a < s.cfg.envTop.toNat → readByte t.mem a = readByte s.mem a

/-- In user mode what a guarded read or a guard query gives does not depend on the bytes of LOW: replacing `MEM` by
one that agrees from `ENV_TOP` up gives the same next state, with the memory so replaced (R120; `S` is `SR[13]`,
log 11). -/
def Obligations.UserModeNeverReadsLowThroughTheAccessor : Prop :=
  ∀ (s t : State) (sz : Size) (addr : Word) (m' : Memory), s.sr.getLsbD 13 = false →
    agreeFrom s.cfg.envTop.toNat s.mem m' →
    (exec (memRdOf sz addr) s = .next t → exec (memRdOf sz addr) { s with mem := m' } = .next { t with mem := m' })
    ∧ (exec (.guardRd addr) s = .next t → exec (.guardRd addr) { s with mem := m' } = .next { t with mem := m' })
    ∧ (exec (.guardWr addr) s = .next t → exec (.guardWr addr) { s with mem := m' } = .next { t with mem := m' })

/-! The Operand Decoder. -/

/-- IDX_GET completes whenever its word lies below `MEM_ALOC`: the word's fields select the register and the index
size, bits 10:8 play no part, the displacement is sign-extended, the sum wraps mod 2^32, and `PC` advances by 2 (R56,
R91). -/
def Obligations.IdxGetAddsIndexAndDisplacement : Prop :=
  ∀ (s : State) (ext : Half) (x : Word), s.run = .running → s.pc.toNat + 2 ≤ s.cfg.memAloc.toNat →
    ext = readByte s.mem s.pc.toNat ++ readByte s.mem (s.pc.toNat + 1) →
    x = (if ext.getLsbD 15 then s.areg.get (ext.extractLsb' 12 3).toFin
         else s.dreg.get (ext.extractLsb' 12 3).toFin) →
    exec .idxGet s = .next { s with
      pc := s.pc + 2
      result := some (.ok (respData
        ((if ext.getLsbD 11 then x else (x.extractLsb' 0 16).signExtend 32)
          + (ext.extractLsb' 0 8).signExtend 32))) }

/-- IMM_GET.B, IMM_GET.W, IMM_GET.L complete whenever their slot lies below `MEM_ALOC`: the value at the old `PC`,
zero-extended, and `PC` advanced by the slot (R92 to R94). -/
def Obligations.ImmGetReturnsTheSlot : Prop :=
  ∀ (s : State) (p : Nat), s.run = .running → p = s.pc.toNat →
    (p + 2 ≤ s.cfg.memAloc.toNat →
      exec .immGetB s = .next { s with
        pc := s.pc + 2
        result := some (.ok (respData ((readByte s.mem (p + 1)).setWidth 32))) }
      ∧ exec .immGetW s = .next { s with
        pc := s.pc + 2
        result := some (.ok (respData ((readByte s.mem p ++ readByte s.mem (p + 1)).setWidth 32))) })
    ∧ (p + 4 ≤ s.cfg.memAloc.toNat →
      exec .immGetL s = .next { s with
        pc := s.pc + 4
        result := some (.ok (respData (readByte s.mem p ++ readByte s.mem (p + 1)
          ++ readByte s.mem (p + 2) ++ readByte s.mem (p + 3)))) })

/-- A decoder command ends in `ModelFault(FetchOutOfBuffer)` exactly when its bytes do not all lie below `MEM_ALOC`
(R90, R132). -/
def Obligations.FetchPastTheBufferFaults : Prop :=
  ∀ (s : State) (i : Instr) (n : Nat), s.run = .running → consumed i = some n →
    (exec i s = .fault .fetchOutOfBuffer ↔ s.cfg.memAloc.toNat < s.pc.toNat + n)
    ∧ (s.pc.toNat + n ≤ s.cfg.memAloc.toNat → ∃ t, exec i s = .next t)

/-- R95: a decoder command that completes advances `PC` by exactly the bytes it consumes, one that is refused leaves it
(one that faults has no next state), and no other command changes it. -/
def Obligations.PcAdvancesByTheBytesConsumed : Prop :=
  ∀ (i : Instr) (s t : State), isOperandWord i = false → exec i s = .next t →
    (∀ n, consumed i = some n → s.run = .running → t.pc.toNat = s.pc.toNat + n)
    ∧ (consumed i = none → t.pc = s.pc)
    ∧ (∀ r, t.result = some (.refused r) → t.pc = s.pc)

/-- The decoder commands do not depend on `SR`, `IO_THROUGH` or `ENV_TOP`, write none of `MEM`, `D`, `A`, `SR`,
`RUN`, `STATUS`, `FAULT`, `OUT`, and read no byte outside their slot at `PC`, past which they leave `PC`, so that the
next one reads the next slot. It is R96, which the spec marks as derived from R90 to R94. -/
def Obligations.DecoderDependsOnItsSlotOnly : Prop :=
  ∀ (i : Instr) (n : Nat) (s t : State), consumed i = some n → s.run = .running → exec i s = .next t →
    (t.mem = s.mem ∧ t.dreg = s.dreg ∧ t.areg = s.areg ∧ t.sr = s.sr ∧ t.run = s.run ∧ t.status = s.status
      ∧ t.fault = s.fault ∧ t.out = s.out ∧ t.pc.toNat = s.pc.toNat + n)
    ∧ ∀ (sr' : Half) (envTop' : Word) (io' : Bool) (m' : Memory),
        (∀ k, k < n → readByte m' (s.pc.toNat + k) = readByte s.mem (s.pc.toNat + k)) →
        exec i { s with sr := sr', cfg := { s.cfg with envTop := envTop', ioThrough := io' }, mem := m' }
          = .next { t with sr := sr', cfg := { s.cfg with envTop := envTop', ioThrough := io' }, mem := m' }

/-- For `PC` in RAM and the slot below `MEM_ALOC` an immediate fetch returns what the accessor reads there; in LOW,
in user mode, the accessor aborts and the fetch completes. It is R97, which the spec marks as derived from R90 and R80 to
R83; `S` is `SR[13]` (log 11). -/
def Obligations.DecoderAgreesWithTheAccessorInRam : Prop :=
  ∀ (s : State), s.run = .running → s.cfg.wf = true →
    (s.cfg.envTop ≤ s.pc → s.pc.toNat + 2 ≤ s.cfg.memAloc.toNat →
      ∃ d d', exec .immGetW s = .next { s with pc := s.pc + 2, result := some (.ok (respData d)) }
        ∧ exec (.memRdW s.pc) s = .next { s with result := some (.ok (respData d)) }
        ∧ exec .immGetB s = .next { s with pc := s.pc + 2, result := some (.ok (respData d')) }
        ∧ exec (.memRdB (s.pc + 1)) s = .next { s with result := some (.ok (respData d')) })
    ∧ (s.cfg.envTop ≤ s.pc → s.pc.toNat + 4 ≤ s.cfg.memAloc.toNat →
      ∃ d, exec .immGetL s = .next { s with pc := s.pc + 4, result := some (.ok (respData d)) }
        ∧ exec (.memRdL s.pc) s = .next { s with result := some (.ok (respData d)) })
    ∧ (∀ sz, s.pc < s.cfg.envTop → s.sr.getLsbD 13 = false → s.pc.toNat + 4 ≤ s.cfg.memAloc.toNat →
      (∃ d n, exec (immGetOf sz) s = .next { s with pc := s.pc + n, result := some (.ok (respData d)) })
      ∧ exec (memRdOf sz s.pc) s = .next (takeAbort .invalidAddress .read s.pc s))

/-- Every extension word is one of the four variants, by its bits 15 and 11; its index value is the variant's; and
two words that differ in bits 10:8 only give the same result. It is R57; which bits are ignored is the spec's own decision
D22. -/
def Obligations.ScaleBitsAreIgnored : Prop :=
  ∀ (s : State) (w w' : Half), s.run = .running → s.pc.toNat + 2 ≤ s.cfg.memAloc.toNat →
    readByte s.mem s.pc.toNat ++ readByte s.mem (s.pc.toNat + 1) = w →
    (∃ x, exec .idxGet s = .next { s with
          pc := s.pc + 2
          result := some (.ok (respData (x + (w.extractLsb' 0 8).signExtend 32))) }
      ∧ ((w &&& 0x8800 = 0x0000 ∧ x = ((s.dreg.get (w.extractLsb' 12 3).toFin).extractLsb' 0 16).signExtend 32)
        ∨ (w &&& 0x8800 = 0x0800 ∧ x = s.dreg.get (w.extractLsb' 12 3).toFin)
        ∨ (w &&& 0x8800 = 0x8000 ∧ x = ((s.areg.get (w.extractLsb' 12 3).toFin).extractLsb' 0 16).signExtend 32)
        ∨ (w &&& 0x8800 = 0x8800 ∧ x = s.areg.get (w.extractLsb' 12 3).toFin)))
    ∧ ∀ m', readByte m' s.pc.toNat ++ readByte m' (s.pc.toNat + 1) = w' → w &&& 0xF8FF = w' &&& 0xF8FF →
        ∀ t, exec .idxGet s = .next t → exec .idxGet { s with mem := m' } = .next { t with mem := m' }

/-- The operand words EXT.Dn.W, EXT.Dn.L, EXT.An.W, EXT.An.L complete in every running state: the variant's index plus
the displacement, `PC` past the word (log 9: this is what IDX_GET does once it has read the word). -/
def Obligations.ExtensionWordsGiveIndexPlusDisplacement : Prop :=
  ∀ (s : State) (reg : Fin 8) (ign : BitVec 3) (disp : BitVec 8), s.run = .running →
    exec (.extDnW reg ign disp) s = .next { s with
      pc := s.pc + 2
      result := some (.ok (respData (((s.dreg.get reg).extractLsb' 0 16).signExtend 32 + disp.signExtend 32))) }
    ∧ exec (.extDnL reg ign disp) s = .next { s with
      pc := s.pc + 2, result := some (.ok (respData (s.dreg.get reg + disp.signExtend 32))) }
    ∧ exec (.extAnW reg ign disp) s = .next { s with
      pc := s.pc + 2
      result := some (.ok (respData (((s.areg.get reg).extractLsb' 0 16).signExtend 32 + disp.signExtend 32))) }
    ∧ exec (.extAnL reg ign disp) s = .next { s with
      pc := s.pc + 2, result := some (.ok (respData (s.areg.get reg + disp.signExtend 32))) }

/-- The next decoder command sees the bytes a MEM_WR has just stored at `PC`. It is R47, which the spec marks as
derived from R30 and R45. -/
def Obligations.FetchSeesTheStoreBeforeIt : Prop :=
  ∀ (s : State) (addr v : Word), s.run = .running → performed addr s = true → mask24 addr = s.pc →
    (fits .word addr s = true → ∃ t, exec (.memWrW addr v) s = .next t
      ∧ exec .immGetW t = .next { t with
          pc := s.pc + 2, result := some (.ok (respData ((v.extractLsb' 0 16).setWidth 32))) }
      ∧ exec .immGetB t = .next { t with
          pc := s.pc + 2, result := some (.ok (respData ((v.extractLsb' 0 8).setWidth 32))) }
      ∧ exec .idxGet t = exec (decodeExt (v.extractLsb' 0 16)) t)
    ∧ (fits .long addr s = true → ∃ t, exec (.memWrL addr v) s = .next t
      ∧ exec .immGetL t = .next { t with pc := s.pc + 4, result := some (.ok (respData v)) })

/-! Aborts. -/

/-- ABORT completes in every running state, in either mode: its own effect is to take the abort, with the address as
given, no `Message`, and the register dump only with `DIAG` (R100, R101, R126). -/
def Obligations.AbortCommandTakesTheAbort : Prop :=
  ∀ (s : State) (addr : Word), s.run = .running →
    exec (.abort addr) s = .next { s with
      run := .aborting
      status := 2
      fault := { valid := true, kind := 3, dir := 0, addr := addr }
      out := s.out ++ [Event.diagLine addr, Event.releaseFiles]
        ++ (if s.cfg.diag then [Event.regDump s.dreg s.areg s.pc s.sr] else []) ++ [Event.transfer 2]
      result := some (.aborted .explicit .read addr) }

/-- Every abort, whichever instruction takes it, is the one sequence: its events in order, `FAULT`
with the kind's code, `STATUS` 2, `RUN` `Aborting`; `MEM`, `PC`, `D`, `A`, `SR` and the configuration are as
before. It is R112 to R114; the spec marks the one transition as its own decision D30 and R113 as derived from R112 and
R87. -/
def Obligations.EveryAbortRunsTheOneSequence : Prop :=
  ∀ (i : Instr) (s t : State), s.run = .running → exec i s = .next t → t.run = .aborting →
    ∃ (kind : AbortKind) (dir : Dir) (addr : Word),
      t = { s with
        run := .aborting
        status := 2
        fault :=
          { valid := true
            kind := (match kind with | .ioRegion => 1 | .invalidAddress => 2 | .explicit => 3)
            dir := (match dir with | .read => 0 | .write => 1)
            addr := addr }
        out := s.out
          ++ (if kind = .explicit then [] else [Event.message kind dir addr])
          ++ [Event.diagLine addr, Event.releaseFiles]
          ++ (if s.cfg.diag then [Event.regDump s.dreg s.areg s.pc s.sr] else [])
          ++ [Event.transfer 2]
        result := some (.aborted kind dir addr) }

/-- R114, R123: every abort leaves 2 in `STATUS` and puts exactly one `Transfer(2)` and exactly one `ReleaseFiles` on the
trace, behind what stood there. -/
def Obligations.EveryAbortHasStatusTwoAndReleasesOnce : Prop :=
  ∀ (i : Instr) (s t : State), s.run = .running → exec i s = .next t → t.run = .aborting →
    t.status = 2 ∧ ∃ ev, t.out = s.out ++ ev
      ∧ (∀ code, ev.count (.transfer code) = if code = 2 then 1 else 0) ∧ ev.count .releaseFiles = 1

/-- What each kind of abort records, and what caused it: an I/O-region access or query with pass-through off, an
access or query below the I/O region in user mode or beyond allocated memory, or the ABORT command; `PC` is untouched
and `STATUS` is 2. It is R110, whose codes the spec marks as its own decision D12; `S` is `SR[13]` (log 11). -/
def Obligations.AbortKindsHaveTheirCauses : Prop :=
  ∀ (i : Instr) (s t : State) (kind : AbortKind) (dir : Dir) (addr : Word), s.run = .running →
    exec i s = .next t → t.result = some (.aborted kind dir addr) →
    t.run = .aborting ∧ t.status = 2 ∧ t.pc = s.pc
    ∧ t.fault.valid = true ∧ t.fault.addr = addr ∧ t.fault.dir = (match dir with | .read => 0 | .write => 1)
    ∧ (kind = .ioRegion → t.fault.kind = 1 ∧ 0xC00000 ≤ addr ∧ s.cfg.ioThrough = false
      ∧ ∃ a, accessOf i = some (dir, a) ∧ addr = a &&& 0x00FFFFFF)
    ∧ (kind = .invalidAddress → t.fault.kind = 2 ∧ addr < 0xC00000
      ∧ (s.sr.getLsbD 13 = false ∨ s.cfg.memAloc ≤ addr)
      ∧ ∃ a, accessOf i = some (dir, a) ∧ addr = a &&& 0x00FFFFFF)
    ∧ (kind = .explicit → t.fault.kind = 3 ∧ dir = .read ∧ i = .abort addr)

/-- `DIAG` changes nothing but whether the register dump is on the trace (R18, R126). -/
def Obligations.DiagOnlyAddsTheRegisterDump : Prop :=
  ∀ (i : Instr) (s t : State) (b : Bool), exec i s = .next t →
    ∃ t', exec i { s with cfg := { s.cfg with diag := b } } = .next t'
      ∧ t' = { t with cfg := { t.cfg with diag := b }, out := t'.out }
      ∧ t'.out.filter (fun e => !isRegDump e) = t.out.filter (fun e => !isRegDump e)

/-- The texts show the address: the message 6 digits, the diagnostic line 8, and equal digits mean equal addresses, in
the message masked ones (R122; log 14: only these parts of the texts are modelled). -/
def Obligations.ReportedDigitsDetermineTheAddress : Prop :=
  (∀ (kind : AbortKind) (dir : Dir) (a b : Word),
    (eventHex (.message kind dir a)).length = 6 ∧ (eventHex (.diagLine a)).length = 8
    ∧ (eventHex (.message kind dir a) = eventHex (.message kind dir b) ↔ mask24 a = mask24 b)
    ∧ (eventHex (.diagLine a) = eventHex (.diagLine b) ↔ a = b))

/-- While `RUN = Aborting` every instruction is refused and changes nothing of the block (R115). That the refusal is a
next state that reports it is the model's choice (log 2). -/
def Obligations.HoldRefusesEveryCommand : Prop :=
  ∀ (i : Instr) (s : State), s.run = .aborting →
    exec i s = .next { s with result := some (.refused .aborting) }

/-- R19: `Running` to `Aborting` only in an abort of a command; `Aborting` to `Running` only by HOST_RESTART. -/
def Obligations.OnlyRestartLiftsTheHold : Prop :=
  ∀ s t : State, step s = .next t →
    (s.run = .running → t.run = .aborting →
      (∃ r rest, s.host = .request r :: rest) ∧ ∃ kind dir addr, t.result = some (.aborted kind dir addr))
    ∧ (s.run = .aborting → t.run = .running → ∃ pc0 rest, s.host = .restart pc0 :: rest)

/-- `OUT` is append-only and only an abort appends to it: exactly one `ReleaseFiles` and one `Transfer(2)`, which comes
last; `STATUS` is then 2. It rests on R22, which the spec marks as its own decision D27, and on log 16 (no step resets
`OUT`). -/
def Obligations.TraceGrowsOnlyByAborts : Prop :=
  ∀ s t : State, step s = .next t →
    ∃ ev, t.out = s.out ++ ev
      ∧ (ev = [] ∨ (s.run = .running ∧ t.run = .aborting ∧ t.status = 2 ∧ ev.count .releaseFiles = 1
        ∧ ev.count (.transfer 2) = 1 ∧ ev.getLast? = some (.transfer 2)))

/-! Frames. -/

/-- No instruction writes `D`, `A`, `SR`, the configuration, or the host's list; and one that does not end in an abort
leaves `RUN`, `STATUS`, `FAULT` and `OUT` (R12, R13, R14, R24). -/
def Obligations.CommandsNeverWriteTheHostsRegisters : Prop :=
  ∀ (i : Instr) (s t : State), exec i s = .next t →
    t.dreg = s.dreg ∧ t.areg = s.areg ∧ t.sr = s.sr ∧ t.cfg = s.cfg ∧ t.host = s.host
    ∧ (wasAborted t = false → t.run = s.run ∧ t.status = s.status ∧ t.fault = s.fault ∧ t.out = s.out)

/-- The frame of GUARD_RD, GUARD_WR, MEM_RD.B, MEM_RD.W, MEM_RD.L and ABORT: every register and every byte of memory
is unchanged; a result is reported, and only an abort writes `RUN`, `STATUS`, `FAULT`, `OUT`. -/
def Obligations.FrameOfQueriesReadsAndAbort : Prop :=
  ∀ (i : Instr) (s t : State), isStore i = false → consumed i = none → isOperandWord i = false →
    exec i s = .next t →
    t.pc = s.pc ∧ t.dreg = s.dreg ∧ t.areg = s.areg ∧ t.sr = s.sr ∧ t.cfg = s.cfg
    ∧ (∀ a, readByte t.mem a = readByte s.mem a)
    ∧ t = { s with run := t.run, status := t.status, fault := t.fault, out := t.out, result := t.result }
    ∧ (wasAborted t = false → t = { s with result := t.result })

/-- The frame of MEM_WR.B, MEM_WR.W, MEM_WR.L: with the address the meaning itself computes (`locate`), every byte
outside the bytes of the access reads as before; where nothing is stored every byte does; every register is unchanged,
and only an abort writes `RUN`, `STATUS`, `FAULT`, `OUT`. -/
def Obligations.FrameOfStores : Prop :=
  ∀ (sz : Size) (addr wdata : Word) (s t : State), exec (memWrOf sz addr wdata) s = .next t →
    (∀ a, locate sz addr s = .index a →
      ∀ c, (c < a ∨ a + sizeBytes sz ≤ c) → readByte t.mem c = readByte s.mem c)
    ∧ ((s.run = .aborting ∨ ∀ a, locate sz addr s ≠ .index a) → ∀ c, readByte t.mem c = readByte s.mem c)
    ∧ t.pc = s.pc ∧ t.dreg = s.dreg ∧ t.areg = s.areg ∧ t.sr = s.sr ∧ t.cfg = s.cfg
    ∧ (wasAborted t = false → t = { s with mem := t.mem, result := t.result })

/-- The frame of IDX_GET, IMM_GET.B, IMM_GET.W, IMM_GET.L and of the operand words: only `PC` and the result change;
every byte of memory reads as before. -/
def Obligations.FrameOfTheDecoder : Prop :=
  ∀ (i : Instr) (s t : State), ((consumed i).isSome = true ∨ isOperandWord i = true) → exec i s = .next t →
    t = { s with pc := t.pc, result := t.result } ∧ ∀ a, readByte t.mem a = readByte s.mem a
end

