-- ==== Sys2Proof/Laws/Decode.lean ====
section
/-! SUPPORT. The fields of an encoded extension word and of a command byte, and the value forms of the helpers. -/

namespace Sys2Proof

variable (da : Bool) (reg : Fin 8) (wl : Bool) (ign : BitVec 3) (disp : BitVec 8)

@[simp] theorem extDa_encodeExt : extDa (encodeExt da reg wl ign disp) = da := by
  simp only [extDa, encodeExt, BitVec.getLsbD_append]
  simp

@[simp] theorem extWl_encodeExt : extWl (encodeExt da reg wl ign disp) = wl := by
  simp only [extWl, encodeExt, BitVec.getLsbD_append]
  simp

@[simp] theorem extDisp_encodeExt : extDisp (encodeExt da reg wl ign disp) = disp := by
  apply BitVec.eq_of_getLsbD_eq
  intro i hi
  simp only [extDisp, encodeExt, BitVec.getLsbD_extractLsb', BitVec.getLsbD_append]
  simp [hi]

@[simp] theorem extIgn_encodeExt : extIgn (encodeExt da reg wl ign disp) = ign := by
  apply BitVec.eq_of_getLsbD_eq
  intro i hi
  simp only [extIgn, encodeExt, BitVec.getLsbD_extractLsb', BitVec.getLsbD_append]
  simp [hi]

@[simp] theorem extReg_encodeExt : extReg (encodeExt da reg wl ign disp) = reg := by
  have h : (encodeExt da reg wl ign disp).extractLsb' 12 3 = BitVec.ofNat 3 reg.val := by
    apply BitVec.eq_of_getLsbD_eq
    intro i hi
    simp only [encodeExt, BitVec.getLsbD_extractLsb', BitVec.getLsbD_append]
    interval_cases i <;> simp
  apply Fin.ext
  simp only [extReg, h, BitVec.toFin_ofNat]
  exact Nat.mod_eq_of_lt reg.isLt

@[simp] theorem opField_cmdByte (op : BitVec 4) (sz : BitVec 2) : opField (cmdByte op sz) = op := by
  revert op sz
  decide

@[simp] theorem zeroField_cmdByte (op : BitVec 4) (sz : BitVec 2) : zeroField (cmdByte op sz) = 0 := by
  revert op sz
  decide

@[simp] theorem szField_cmdByte (op : BitVec 4) (sz : BitVec 2) : szField (cmdByte op sz) = sz := by
  revert op sz
  decide

end Sys2Proof
end

