-- ==== Sys2Proof/Laws/Memory.lean ====
section
/-! SUPPORT. The laws of memory: a read after a write, and that every memory operation keeps the canonical form and the
bound of `MEM`. -/

namespace Sys2Proof.Machine

theorem readByte_insertCell (m : Memory) (a c : Nat) (b : Byte) :
    readByte (insertCell m a b) c = if c = a then b else readByte m c := by
  induction m with
  | nil => simp [insertCell, readByte, eq_comm]
  | cons x rest ih =>
    obtain ⟨k, v⟩ := x
    rcases lt_trichotomy k a with h | h | h
    · have h1 : k ≠ a := by omega
      by_cases hc : k = c
      · subst hc
        simp [insertCell, readByte, h, h1]
      · simp [insertCell, readByte, h, hc, ih]
    · subst h
      by_cases hc : k = c
      · simp [insertCell, readByte, hc]
      · simp [insertCell, readByte, hc, Ne.symm hc]
    · have h1 : ¬ k < a := by omega
      have h2 : k ≠ a := by omega
      by_cases hc : a = c
      · subst hc
        simp [insertCell, readByte, h1, h2]
      · simp [insertCell, readByte, h1, h2, hc, Ne.symm hc]

theorem readByte_filter (m : Memory) (a c : Nat) :
    readByte (m.filter (fun x => x.1 != a)) c = if c = a then fillByte else readByte m c := by
  induction m with
  | nil => simp [readByte]
  | cons x rest ih =>
    obtain ⟨k, v⟩ := x
    by_cases hk : k = a
    · subst hk
      by_cases hc : c = k
      · subst hc
        simpa using ih
      · simp [readByte, ih, hc, Ne.symm hc]
    · by_cases hc : k = c
      · subst hc
        simp [readByte, hk]
      · simp [readByte, hk, hc, ih]

/-- A read after a write: the byte written at its own address, every other byte as before; of any memory. -/
theorem readByte_writeByte (m : Memory) (a c : Nat) (b : Byte) :
    readByte (writeByte m a b) c = if c = a then b else readByte m c := by
  unfold writeByte
  split
  · rename_i h
    rw [readByte_filter, h]
  · exact readByte_insertCell m a c b

theorem wfFrom_mono (m : Memory) {lo lo' : Nat} (h : lo' ≤ lo) (w : wfFrom lo m = true) : wfFrom lo' m = true := by
  cases m with
  | nil => rfl
  | cons x rest =>
    obtain ⟨k, v⟩ := x
    simp only [wfFrom, Bool.and_eq_true, decide_eq_true_eq] at w ⊢
    exact ⟨⟨by omega, w.1.2⟩, w.2⟩

theorem wfFrom_filter (m : Memory) (p : Host.Cell → Bool) (lo : Nat) (w : wfFrom lo m = true) :
    wfFrom lo (m.filter p) = true := by
  induction m generalizing lo with
  | nil => rfl
  | cons x rest ih =>
    obtain ⟨k, v⟩ := x
    simp only [wfFrom, Bool.and_eq_true, decide_eq_true_eq] at w
    by_cases hp : p (k, v) = true
    · simp only [List.filter_cons, hp, if_true, wfFrom, Bool.and_eq_true, decide_eq_true_eq]
      exact ⟨w.1, ih _ w.2⟩
    · simp only [List.filter_cons, hp]
      exact wfFrom_mono _ (by omega) (ih _ w.2)

theorem wfFrom_insertCell (m : Memory) (a : Nat) (b : Byte) (hb : b ≠ fillByte) (lo : Nat) (hlo : lo ≤ a)
    (w : wfFrom lo m = true) : wfFrom lo (insertCell m a b) = true := by
  induction m generalizing lo with
  | nil => simp [insertCell, wfFrom, hlo, hb]
  | cons x rest ih =>
    obtain ⟨k, v⟩ := x
    simp only [wfFrom, Bool.and_eq_true, decide_eq_true_eq] at w
    rcases lt_trichotomy k a with h | h | h
    · simp only [insertCell, h, if_true, wfFrom, Bool.and_eq_true, decide_eq_true_eq]
      exact ⟨w.1, ih _ (by omega) w.2⟩
    · subst h
      simpa [insertCell, wfFrom, hb, w.2] using hlo
    · have h1 : ¬ k < a := by omega
      have h2 : k ≠ a := by omega
      simp only [insertCell, h1, h2, if_false, wfFrom, Bool.and_eq_true, decide_eq_true_eq]
      exact ⟨⟨hlo, by simpa using hb⟩, ⟨by omega, w.1.2⟩, w.2⟩

/-- Writing a byte keeps the canonical form. -/
theorem writeByte_wf (m : Memory) (a : Nat) (b : Byte) (w : Memory.wf m = true) :
    Memory.wf (writeByte m a b) = true := by
  unfold writeByte
  split
  · exact wfFrom_filter m _ 0 w
  · rename_i h
    exact wfFrom_insertCell m a b h 0 (Nat.zero_le a) w

theorem insertCell_below (m : Memory) (a n : Nat) (b : Byte) (ha : a < n) (h : memBelow m n = true) :
    memBelow (insertCell m a b) n = true := by
  unfold memBelow at h ⊢
  induction m with
  | nil => simpa [insertCell] using ha
  | cons x rest ih =>
    obtain ⟨k, v⟩ := x
    simp only [List.all_cons, Bool.and_eq_true, decide_eq_true_eq] at h
    unfold insertCell
    split
    · simp [h.1, ih h.2]
    · split
      · simp [ha, h.2]
      · simp [ha, h.1, h.2]

/-- Writing a byte below `n` keeps the bound `n`. -/
theorem writeByte_below (m : Memory) (a n : Nat) (b : Byte) (ha : a < n) (h : memBelow m n = true) :
    memBelow (writeByte m a b) n = true := by
  unfold writeByte
  split
  · unfold memBelow at h ⊢
    rw [List.all_eq_true] at h ⊢
    exact fun c hc => h c (List.mem_filter.mp hc).1
  · exact insertCell_below m a n b ha h

/-- Storing big-endian bytes keeps the canonical form. -/
theorem writeBE_wf (m : Memory) (i n : Nat) (v : Word) (w : Memory.wf m = true) :
    Memory.wf (writeBE m i n v) = true := by
  induction n generalizing m i with
  | zero => exact w
  | succ n ih => exact ih _ _ (writeByte_wf m i _ w)

/-- Storing bytes that all lie below `lim` keeps the bound `lim`. -/
theorem writeBE_below (m : Memory) (i n lim : Nat) (v : Word) (hi : i + n ≤ lim) (h : memBelow m lim = true) :
    memBelow (writeBE m i n v) lim = true := by
  induction n generalizing m i with
  | zero => exact h
  | succ n ih => exact ih _ _ (by omega) (writeByte_below m i lim _ (by omega) h)

/-- Storing bytes leaves every byte outside them. -/
theorem readByte_writeBE_outside (m : Memory) (i n : Nat) (v : Word) (a : Nat) (h : a < i ∨ i + n ≤ a) :
    readByte (writeBE m i n v) a = readByte m a := by
  induction n generalizing m i with
  | zero => rfl
  | succ n ih =>
    rw [writeBE, ih _ _ (by omega), readByte_writeByte, if_neg (by omega)]

/-- Storing bytes puts byte `k` of the low `n`, most significant first, at `i + k`. -/
theorem readByte_writeBE_inside (m : Memory) (i n : Nat) (v : Word) (k : Nat) (h : k < n) :
    readByte (writeBE m i n v) (i + k) = v.extractLsb' (8 * (n - 1 - k)) 8 := by
  induction n generalizing m i k with
  | zero => omega
  | succ n ih =>
    rw [writeBE]
    cases k with
    | zero =>
      rw [readByte_writeBE_outside _ _ _ _ _ (by omega), readByte_writeByte]
      simp
    | succ k =>
      have := ih (writeByte m i (v.extractLsb' (8 * n) 8)) (i + 1) k (by omega)
      rw [show i + (k + 1) = i + 1 + k by omega, this]
      congr 1
      omega

/-- Composing one byte after another is concatenation, the earlier byte above. -/
theorem shift_or_zext8 (w : Nat) (d : BitVec w) (b : Byte) :
    ((d.setWidth 32) <<< 8) ||| zext8 b = (d ++ b).setWidth 32 := by
  apply BitVec.eq_of_getLsbD_eq
  intro i hi
  simp only [zext8, BitVec.getLsbD_or, BitVec.getLsbD_shiftLeft, BitVec.getLsbD_setWidth, BitVec.getLsbD_append]
  by_cases h8 : i < 8
  · simp [h8, hi]
  · simp [h8, hi, show i - 8 < 32 by omega, BitVec.getLsbD_of_ge b i (by omega)]

theorem readBE_one (m : Memory) (i : Nat) : readBE m i 1 = (readByte m i).setWidth 32 := by
  simp [readBE, composeBE, zext8]

theorem readBE_two (m : Memory) (i : Nat) :
    readBE m i 2 = (readByte m i ++ readByte m (i + 1)).setWidth 32 := by
  rw [← shift_or_zext8 8 _ _]
  simp [readBE, composeBE, zext8]

theorem readBE_four (m : Memory) (i : Nat) :
    readBE m i 4 = readByte m i ++ readByte m (i + 1) ++ readByte m (i + 2) ++ readByte m (i + 3) := by
  have h : readBE m i 4 = ((readBE m i 2 <<< 8 ||| zext8 (readByte m (i + 2))) <<< 8) ||| zext8 (readByte m (i + 3)) := by
    simp [readBE, composeBE]
  rw [h, readBE_two, shift_or_zext8 _ _ _, shift_or_zext8 _ _ _]
  exact BitVec.setWidth_eq _

/-- Two adjacent bytes of a word are its 16-bit field. -/
theorem extract_bytes_two (v : Word) : v.extractLsb' 8 8 ++ v.extractLsb' 0 8 = v.extractLsb' 0 16 := by
  apply BitVec.eq_of_getLsbD_eq
  intro i hi
  simp only [BitVec.getLsbD_append, BitVec.getLsbD_extractLsb']
  interval_cases i <;> simp

/-- The four bytes of a word are the word. -/
theorem extract_bytes_four (v : Word) :
    v.extractLsb' 24 8 ++ v.extractLsb' 16 8 ++ v.extractLsb' 8 8 ++ v.extractLsb' 0 8 = v := by
  apply BitVec.eq_of_getLsbD_eq
  intro i hi
  simp only [BitVec.getLsbD_append, BitVec.getLsbD_extractLsb']
  interval_cases i <;> simp

/-- Two memories that hold the same bytes there read the same. -/
theorem readBE_congr (m m' : Memory) (i n : Nat) (h : ∀ k, k < n → readByte m (i + k) = readByte m' (i + k)) :
    readBE m i n = readBE m' i n := by
  unfold readBE
  generalize (0 : Word) = d
  induction n generalizing i d with
  | zero => rfl
  | succ n ih =>
    have h0 := h 0 (by omega)
    simp only [Nat.add_zero] at h0
    rw [composeBE, composeBE, h0]
    exact ih _ (fun k hk => by
      have := h (k + 1) (by omega)
      rwa [show i + (k + 1) = i + 1 + k by omega] at this) _

/-- The memory of a configuration just created, and of reset, is in its canonical form. -/
theorem wf_nil : Memory.wf [] = true := rfl

theorem reset_memInv : memInv State.reset = true := by decide

end Sys2Proof.Machine
end

