-- ==== Sys2Proof/Laws/State.lean ====
section
/-! SUPPORT. What each update of the state writes and leaves, one lemma per field per update. -/

namespace Sys2Proof.Machine

variable (s : State)

@[simp] theorem setMem_mem (m : Memory) : (s.setMem m).mem = m := rfl
@[simp] theorem setMem_pc (m : Memory) : (s.setMem m).pc = s.pc := rfl
@[simp] theorem setMem_dreg (m : Memory) : (s.setMem m).dreg = s.dreg := rfl
@[simp] theorem setMem_areg (m : Memory) : (s.setMem m).areg = s.areg := rfl
@[simp] theorem setMem_sr (m : Memory) : (s.setMem m).sr = s.sr := rfl
@[simp] theorem setMem_cfg (m : Memory) : (s.setMem m).cfg = s.cfg := rfl
@[simp] theorem setMem_run (m : Memory) : (s.setMem m).run = s.run := rfl
@[simp] theorem setMem_status (m : Memory) : (s.setMem m).status = s.status := rfl
@[simp] theorem setMem_fault (m : Memory) : (s.setMem m).fault = s.fault := rfl
@[simp] theorem setMem_out (m : Memory) : (s.setMem m).out = s.out := rfl
@[simp] theorem setMem_host (m : Memory) : (s.setMem m).host = s.host := rfl
@[simp] theorem setMem_result (m : Memory) : (s.setMem m).result = s.result := rfl

@[simp] theorem setPc_mem (v : Word) : (s.setPc v).mem = s.mem := rfl
@[simp] theorem setPc_pc (v : Word) : (s.setPc v).pc = v := rfl
@[simp] theorem setPc_dreg (v : Word) : (s.setPc v).dreg = s.dreg := rfl
@[simp] theorem setPc_areg (v : Word) : (s.setPc v).areg = s.areg := rfl
@[simp] theorem setPc_sr (v : Word) : (s.setPc v).sr = s.sr := rfl
@[simp] theorem setPc_cfg (v : Word) : (s.setPc v).cfg = s.cfg := rfl
@[simp] theorem setPc_run (v : Word) : (s.setPc v).run = s.run := rfl
@[simp] theorem setPc_status (v : Word) : (s.setPc v).status = s.status := rfl
@[simp] theorem setPc_fault (v : Word) : (s.setPc v).fault = s.fault := rfl
@[simp] theorem setPc_out (v : Word) : (s.setPc v).out = s.out := rfl
@[simp] theorem setPc_host (v : Word) : (s.setPc v).host = s.host := rfl
@[simp] theorem setPc_result (v : Word) : (s.setPc v).result = s.result := rfl

@[simp] theorem setD_mem (i : Fin 8) (v : Word) : (s.setD i v).mem = s.mem := rfl
@[simp] theorem setD_pc (i : Fin 8) (v : Word) : (s.setD i v).pc = s.pc := rfl
@[simp] theorem setD_dreg (i : Fin 8) (v : Word) : (s.setD i v).dreg = s.dreg.set i.val v i.isLt := rfl
@[simp] theorem setD_areg (i : Fin 8) (v : Word) : (s.setD i v).areg = s.areg := rfl
@[simp] theorem setD_sr (i : Fin 8) (v : Word) : (s.setD i v).sr = s.sr := rfl
@[simp] theorem setD_cfg (i : Fin 8) (v : Word) : (s.setD i v).cfg = s.cfg := rfl
@[simp] theorem setD_run (i : Fin 8) (v : Word) : (s.setD i v).run = s.run := rfl
@[simp] theorem setD_status (i : Fin 8) (v : Word) : (s.setD i v).status = s.status := rfl
@[simp] theorem setD_fault (i : Fin 8) (v : Word) : (s.setD i v).fault = s.fault := rfl
@[simp] theorem setD_out (i : Fin 8) (v : Word) : (s.setD i v).out = s.out := rfl
@[simp] theorem setD_host (i : Fin 8) (v : Word) : (s.setD i v).host = s.host := rfl
@[simp] theorem setD_result (i : Fin 8) (v : Word) : (s.setD i v).result = s.result := rfl

@[simp] theorem setA_mem (i : Fin 8) (v : Word) : (s.setA i v).mem = s.mem := rfl
@[simp] theorem setA_pc (i : Fin 8) (v : Word) : (s.setA i v).pc = s.pc := rfl
@[simp] theorem setA_dreg (i : Fin 8) (v : Word) : (s.setA i v).dreg = s.dreg := rfl
@[simp] theorem setA_areg (i : Fin 8) (v : Word) : (s.setA i v).areg = s.areg.set i.val v i.isLt := rfl
@[simp] theorem setA_sr (i : Fin 8) (v : Word) : (s.setA i v).sr = s.sr := rfl
@[simp] theorem setA_cfg (i : Fin 8) (v : Word) : (s.setA i v).cfg = s.cfg := rfl
@[simp] theorem setA_run (i : Fin 8) (v : Word) : (s.setA i v).run = s.run := rfl
@[simp] theorem setA_status (i : Fin 8) (v : Word) : (s.setA i v).status = s.status := rfl
@[simp] theorem setA_fault (i : Fin 8) (v : Word) : (s.setA i v).fault = s.fault := rfl
@[simp] theorem setA_out (i : Fin 8) (v : Word) : (s.setA i v).out = s.out := rfl
@[simp] theorem setA_host (i : Fin 8) (v : Word) : (s.setA i v).host = s.host := rfl
@[simp] theorem setA_result (i : Fin 8) (v : Word) : (s.setA i v).result = s.result := rfl

@[simp] theorem setSr_mem (v : Half) : (s.setSr v).mem = s.mem := rfl
@[simp] theorem setSr_pc (v : Half) : (s.setSr v).pc = s.pc := rfl
@[simp] theorem setSr_dreg (v : Half) : (s.setSr v).dreg = s.dreg := rfl
@[simp] theorem setSr_areg (v : Half) : (s.setSr v).areg = s.areg := rfl
@[simp] theorem setSr_sr (v : Half) : (s.setSr v).sr = v := rfl
@[simp] theorem setSr_cfg (v : Half) : (s.setSr v).cfg = s.cfg := rfl
@[simp] theorem setSr_run (v : Half) : (s.setSr v).run = s.run := rfl
@[simp] theorem setSr_status (v : Half) : (s.setSr v).status = s.status := rfl
@[simp] theorem setSr_fault (v : Half) : (s.setSr v).fault = s.fault := rfl
@[simp] theorem setSr_out (v : Half) : (s.setSr v).out = s.out := rfl
@[simp] theorem setSr_host (v : Half) : (s.setSr v).host = s.host := rfl
@[simp] theorem setSr_result (v : Half) : (s.setSr v).result = s.result := rfl

@[simp] theorem setCfg_mem (c : Config) : (s.setCfg c).mem = s.mem := rfl
@[simp] theorem setCfg_pc (c : Config) : (s.setCfg c).pc = s.pc := rfl
@[simp] theorem setCfg_dreg (c : Config) : (s.setCfg c).dreg = s.dreg := rfl
@[simp] theorem setCfg_areg (c : Config) : (s.setCfg c).areg = s.areg := rfl
@[simp] theorem setCfg_sr (c : Config) : (s.setCfg c).sr = s.sr := rfl
@[simp] theorem setCfg_cfg (c : Config) : (s.setCfg c).cfg = c := rfl
@[simp] theorem setCfg_run (c : Config) : (s.setCfg c).run = s.run := rfl
@[simp] theorem setCfg_status (c : Config) : (s.setCfg c).status = s.status := rfl
@[simp] theorem setCfg_fault (c : Config) : (s.setCfg c).fault = s.fault := rfl
@[simp] theorem setCfg_out (c : Config) : (s.setCfg c).out = s.out := rfl
@[simp] theorem setCfg_host (c : Config) : (s.setCfg c).host = s.host := rfl
@[simp] theorem setCfg_result (c : Config) : (s.setCfg c).result = s.result := rfl

@[simp] theorem setRun_mem (r : RunState) : (s.setRun r).mem = s.mem := rfl
@[simp] theorem setRun_pc (r : RunState) : (s.setRun r).pc = s.pc := rfl
@[simp] theorem setRun_dreg (r : RunState) : (s.setRun r).dreg = s.dreg := rfl
@[simp] theorem setRun_areg (r : RunState) : (s.setRun r).areg = s.areg := rfl
@[simp] theorem setRun_sr (r : RunState) : (s.setRun r).sr = s.sr := rfl
@[simp] theorem setRun_cfg (r : RunState) : (s.setRun r).cfg = s.cfg := rfl
@[simp] theorem setRun_run (r : RunState) : (s.setRun r).run = r := rfl
@[simp] theorem setRun_status (r : RunState) : (s.setRun r).status = s.status := rfl
@[simp] theorem setRun_fault (r : RunState) : (s.setRun r).fault = s.fault := rfl
@[simp] theorem setRun_out (r : RunState) : (s.setRun r).out = s.out := rfl
@[simp] theorem setRun_host (r : RunState) : (s.setRun r).host = s.host := rfl
@[simp] theorem setRun_result (r : RunState) : (s.setRun r).result = s.result := rfl

@[simp] theorem setResult_mem (r : CommandResult) : (s.setResult r).mem = s.mem := rfl
@[simp] theorem setResult_pc (r : CommandResult) : (s.setResult r).pc = s.pc := rfl
@[simp] theorem setResult_dreg (r : CommandResult) : (s.setResult r).dreg = s.dreg := rfl
@[simp] theorem setResult_areg (r : CommandResult) : (s.setResult r).areg = s.areg := rfl
@[simp] theorem setResult_sr (r : CommandResult) : (s.setResult r).sr = s.sr := rfl
@[simp] theorem setResult_cfg (r : CommandResult) : (s.setResult r).cfg = s.cfg := rfl
@[simp] theorem setResult_run (r : CommandResult) : (s.setResult r).run = s.run := rfl
@[simp] theorem setResult_status (r : CommandResult) : (s.setResult r).status = s.status := rfl
@[simp] theorem setResult_fault (r : CommandResult) : (s.setResult r).fault = s.fault := rfl
@[simp] theorem setResult_out (r : CommandResult) : (s.setResult r).out = s.out := rfl
@[simp] theorem setResult_host (r : CommandResult) : (s.setResult r).host = s.host := rfl
@[simp] theorem setResult_result (r : CommandResult) : (s.setResult r).result = some r := rfl

@[simp] theorem setHost_mem (h : List HostMove) : (s.setHost h).mem = s.mem := rfl
@[simp] theorem setHost_pc (h : List HostMove) : (s.setHost h).pc = s.pc := rfl
@[simp] theorem setHost_dreg (h : List HostMove) : (s.setHost h).dreg = s.dreg := rfl
@[simp] theorem setHost_areg (h : List HostMove) : (s.setHost h).areg = s.areg := rfl
@[simp] theorem setHost_sr (h : List HostMove) : (s.setHost h).sr = s.sr := rfl
@[simp] theorem setHost_cfg (h : List HostMove) : (s.setHost h).cfg = s.cfg := rfl
@[simp] theorem setHost_run (h : List HostMove) : (s.setHost h).run = s.run := rfl
@[simp] theorem setHost_status (h : List HostMove) : (s.setHost h).status = s.status := rfl
@[simp] theorem setHost_fault (h : List HostMove) : (s.setHost h).fault = s.fault := rfl
@[simp] theorem setHost_out (h : List HostMove) : (s.setHost h).out = s.out := rfl
@[simp] theorem setHost_host (h : List HostMove) : (s.setHost h).host = h := rfl
@[simp] theorem setHost_result (h : List HostMove) : (s.setHost h).result = s.result := rfl

@[simp] theorem takeAbort_mem (kind : AbortKind) (dir : Dir) (addr : Word) :
    (takeAbort kind dir addr s).mem = s.mem := rfl
@[simp] theorem takeAbort_pc (kind : AbortKind) (dir : Dir) (addr : Word) :
    (takeAbort kind dir addr s).pc = s.pc := rfl
@[simp] theorem takeAbort_dreg (kind : AbortKind) (dir : Dir) (addr : Word) :
    (takeAbort kind dir addr s).dreg = s.dreg := rfl
@[simp] theorem takeAbort_areg (kind : AbortKind) (dir : Dir) (addr : Word) :
    (takeAbort kind dir addr s).areg = s.areg := rfl
@[simp] theorem takeAbort_sr (kind : AbortKind) (dir : Dir) (addr : Word) :
    (takeAbort kind dir addr s).sr = s.sr := rfl
@[simp] theorem takeAbort_cfg (kind : AbortKind) (dir : Dir) (addr : Word) :
    (takeAbort kind dir addr s).cfg = s.cfg := rfl
@[simp] theorem takeAbort_run (kind : AbortKind) (dir : Dir) (addr : Word) :
    (takeAbort kind dir addr s).run = .aborting := rfl
@[simp] theorem takeAbort_status (kind : AbortKind) (dir : Dir) (addr : Word) :
    (takeAbort kind dir addr s).status = Config.abortStatus := rfl
@[simp] theorem takeAbort_fault (kind : AbortKind) (dir : Dir) (addr : Word) :
    (takeAbort kind dir addr s).fault = { valid := true, kind := kind.code, dir := dir.code, addr := addr } := rfl
@[simp] theorem takeAbort_out (kind : AbortKind) (dir : Dir) (addr : Word) :
    (takeAbort kind dir addr s).out = s.out ++ abortEvents kind dir addr s := rfl
@[simp] theorem takeAbort_host (kind : AbortKind) (dir : Dir) (addr : Word) :
    (takeAbort kind dir addr s).host = s.host := rfl
@[simp] theorem takeAbort_result (kind : AbortKind) (dir : Dir) (addr : Word) :
    (takeAbort kind dir addr s).result = some (.aborted kind dir addr) := rfl

@[simp] theorem hostRestart_mem (pc0 : Word) : (hostRestart pc0 s).mem = s.mem := rfl
@[simp] theorem hostRestart_pc (pc0 : Word) : (hostRestart pc0 s).pc = pc0 := rfl
@[simp] theorem hostRestart_dreg (pc0 : Word) : (hostRestart pc0 s).dreg = s.dreg := rfl
@[simp] theorem hostRestart_areg (pc0 : Word) : (hostRestart pc0 s).areg = s.areg := rfl
@[simp] theorem hostRestart_sr (pc0 : Word) : (hostRestart pc0 s).sr = s.sr := rfl
@[simp] theorem hostRestart_cfg (pc0 : Word) : (hostRestart pc0 s).cfg = s.cfg := rfl
@[simp] theorem hostRestart_run (pc0 : Word) : (hostRestart pc0 s).run = .running := rfl
@[simp] theorem hostRestart_status (pc0 : Word) : (hostRestart pc0 s).status = s.status := rfl
@[simp] theorem hostRestart_fault (pc0 : Word) : (hostRestart pc0 s).fault = s.fault := rfl
@[simp] theorem hostRestart_out (pc0 : Word) : (hostRestart pc0 s).out = s.out := rfl
@[simp] theorem hostRestart_host (pc0 : Word) : (hostRestart pc0 s).host = s.host := rfl
@[simp] theorem hostRestart_result (pc0 : Word) : (hostRestart pc0 s).result = s.result := rfl

@[simp] theorem advancePc_mem (n : Nat) : (advancePc n s).mem = s.mem := rfl
@[simp] theorem advancePc_pc (n : Nat) : (advancePc n s).pc = s.pc + BitVec.ofNat 32 n := rfl
@[simp] theorem advancePc_dreg (n : Nat) : (advancePc n s).dreg = s.dreg := rfl
@[simp] theorem advancePc_areg (n : Nat) : (advancePc n s).areg = s.areg := rfl
@[simp] theorem advancePc_sr (n : Nat) : (advancePc n s).sr = s.sr := rfl
@[simp] theorem advancePc_cfg (n : Nat) : (advancePc n s).cfg = s.cfg := rfl
@[simp] theorem advancePc_run (n : Nat) : (advancePc n s).run = s.run := rfl
@[simp] theorem advancePc_status (n : Nat) : (advancePc n s).status = s.status := rfl
@[simp] theorem advancePc_fault (n : Nat) : (advancePc n s).fault = s.fault := rfl
@[simp] theorem advancePc_out (n : Nat) : (advancePc n s).out = s.out := rfl
@[simp] theorem advancePc_host (n : Nat) : (advancePc n s).host = s.host := rfl
@[simp] theorem advancePc_result (n : Nat) : (advancePc n s).result = s.result := rfl

end Sys2Proof.Machine
end

