-- ==== Sys2Proof/Laws/Ops.lean ====
section
/-! SUPPORT. What each shared operation can do, said once: the provers cite these instead of unfolding. -/

namespace Sys2Proof.Machine

theorem whenRunning_of_running {s : State} (h : s.run = .running) (body : StepOutcome) :
    whenRunning s body = body := by
  simp [whenRunning, h]

theorem whenRunning_of_aborting {s : State} (h : s.run = .aborting) (body : StepOutcome) :
    whenRunning s body = turnAway .aborting s := by
  simp [whenRunning, h]

/-- A command under the hold either runs its body or is turned away. -/
theorem whenRunning_next {s t : State} {body : StepOutcome} (h : whenRunning s body = .next t) :
    (s.run = .running ∧ body = .next t) ∨ (s.run = .aborting ∧ t = s.setResult (.refused .aborting)) := by
  unfold whenRunning at h
  split at h
  · rename_i hr
    exact .inl ⟨hr, h⟩
  · rename_i hr
    exact .inr ⟨hr, by simpa [turnAway, eq_comm] using h⟩

/-- The masked address as a number. -/
theorem mask24_toNat (a : Word) : (mask24 a).toNat = a.toNat % 16777216 := by
  have h : Config.addrMask.toNat = 2 ^ 24 - 1 := by decide
  rw [mask24, BitVec.toNat_and, h, Nat.and_two_pow_sub_one_eq_mod]

/-- A fetch in bounds goes on. -/
theorem afterFetch_of_le {n : Nat} {s : State} (h : s.pc.toNat + n ≤ s.cfg.memAloc.toNat) (body : StepOutcome) :
    afterFetch n s body = body := by
  unfold afterFetch fetchable
  rw [decide_eq_true h]
  rfl

/-- A fetch out of bounds faults. -/
theorem afterFetch_of_lt {n : Nat} {s : State} (h : s.cfg.memAloc.toNat < s.pc.toNat + n) (body : StepOutcome) :
    afterFetch n s body = .fault .fetchOutOfBuffer := by
  unfold afterFetch fetchable
  rw [decide_eq_false (by omega)]
  rfl

/-- Masking twice is masking once. -/
@[simp] theorem mask24_mask24 (a : Word) : mask24 (mask24 a) = mask24 a := by
  simp [mask24, BitVec.and_assoc]

/-- The inversion of a guard verdict: a fatal one has one of the guard's two kinds and a masked address. -/
theorem guardVerdict_fatal {addr : Word} {s : State} {kind : AbortKind} {a24 : Word}
    (h : guardVerdict addr s = .fatal kind a24) :
    (kind = .ioRegion ∨ kind = .invalidAddress) ∧ a24 = mask24 addr := by
  unfold guardVerdict at h
  split at h
  · split at h
    · cases h
    · injection h with h1 h2
      exact ⟨.inl h1.symm, h2.symm⟩
  · split at h
    · injection h with h1 h2
      exact ⟨.inr h1.symm, h2.symm⟩
    · cases h

/-- What an abort of the guard records (R110): one of its two kinds, and a masked address. -/
def GuardAbort (kind : AbortKind) (a24 : Word) : Prop :=
  (kind = .ioRegion ∨ kind = .invalidAddress) ∧ a24 = mask24 a24

theorem guardVerdict_guardAbort {addr : Word} {s : State} {kind : AbortKind} {a24 : Word}
    (h : guardVerdict addr s = .fatal kind a24) : GuardAbort kind a24 := by
  obtain ⟨h1, rfl⟩ := guardVerdict_fatal h
  exact ⟨h1, by simp⟩

/-- A guard query completes or takes an abort. -/
theorem guardQuery_next {dir : Dir} {addr : Word} {s t : State} (h : guardQuery dir addr s = .next t) :
    (∃ p, t = s.setResult (.ok (respPermit p))) ∨ (∃ kind a24, GuardAbort kind a24 ∧ t = takeAbort kind dir a24 s) := by
  unfold guardQuery at h
  split at h
  · exact .inl ⟨true, by simpa [complete, eq_comm] using h⟩
  · exact .inl ⟨false, by simpa [complete, eq_comm] using h⟩
  · rename_i hg
    exact .inr ⟨_, _, guardVerdict_guardAbort hg, by simpa [raiseAbort, eq_comm] using h⟩

/-- An index that `spanned` gives is the masked address, with the whole access below `MEM_ALOC`. -/
theorem spanned_index {sz : Size} {a24 : Word} {s : State} {i : Nat} (h : spanned sz a24 s = .index i) :
    i = a24.toNat ∧ i + sizeBytes sz ≤ s.cfg.memAloc.toNat := by
  unfold spanned at h
  split at h
  · rename_i hs
    obtain rfl : a24.toNat = i := by simpa using h
    exact ⟨rfl, hs⟩
  · cases h

/-- An access that is performed starts in the fast-path range, or the guard permitted it (so `S = 1`); it lies wholly
below `MEM_ALOC`. -/
theorem locate_index {sz : Size} {addr : Word} {s : State} {i : Nat} (h : locate sz addr s = .index i) :
    i = (mask24 addr).toNat ∧ i + sizeBytes sz ≤ s.cfg.memAloc.toNat
      ∧ (s.cfg.envTop.toNat ≤ i ∨ supervisor s = true) := by
  unfold locate at h
  split at h
  · rename_i hf
    obtain ⟨h1, h2⟩ := spanned_index h
    simp only [fastPath, Bool.and_eq_true, decide_eq_true_eq, BitVec.le_def] at hf
    exact ⟨h1, h2, .inl (by omega)⟩
  · split at h
    · cases h
    · cases h
    · rename_i hg
      obtain ⟨h1, h2⟩ := spanned_index h
      refine ⟨h1, h2, .inr ?_⟩
      unfold guardVerdict at hg
      split at hg
      · split at hg <;> cases hg
      · split at hg
        · cases hg
        · rename_i hn
          simpa using fun hs => hn (.inl hs)

/-- An abort of an access comes from the guard. -/
theorem locate_fatal {sz : Size} {addr : Word} {s : State} {kind : AbortKind} {a24 : Word}
    (h : locate sz addr s = .fatal kind a24) : GuardAbort kind a24 := by
  unfold locate at h
  split at h
  · unfold spanned at h
    split at h <;> cases h
  · split at h
    · cases h
    · rename_i hg
      obtain ⟨rfl, rfl⟩ : _ ∧ _ := by simpa using h
      exact guardVerdict_guardAbort hg
    · unfold spanned at h
      split at h <;> cases h

/-- An access that is performed is located in `MEM`, subject to the span rule. -/
theorem locate_performed {sz : Size} {addr : Word} {s : State} (hb : mask24 addr < s.cfg.memAloc)
    (hp : s.cfg.envTop ≤ mask24 addr ∨ (mask24 addr < Config.ioBase ∧ supervisor s = true)) :
    locate sz addr s = spanned sz (mask24 addr) s := by
  unfold locate
  split
  · rfl
  · rename_i hf
    obtain hp | ⟨hio, hs⟩ := hp
    · exact absurd (by simp [fastPath, hb, hp]) hf
    · have : guardVerdict (mask24 addr) s = .permit := by
        unfold guardVerdict
        rw [mask24_mask24, if_neg (BitVec.not_le.mpr hio), if_neg (by simp [hs, BitVec.not_le.mpr hb])]
      rw [this]

/-- A guarded read completes or takes an abort. -/
theorem memRead_next {sz : Size} {addr : Word} {s t : State} (h : memRead sz addr s = .next t) :
    (∃ v, t = s.setResult (.ok (respData v))) ∨ (∃ kind a24, GuardAbort kind a24 ∧ t = takeAbort kind .read a24 s) := by
  unfold memRead at h
  split at h
  · exact .inl ⟨_, by simpa [complete, eq_comm] using h⟩
  · exact .inl ⟨_, by simpa [complete, eq_comm] using h⟩
  · rename_i hf
    exact .inr ⟨_, _, locate_fatal hf, by simpa [raiseAbort, eq_comm] using h⟩
  · cases h

/-- A guarded write stores its bytes where `locate` says, or stores nothing, or takes an abort. -/
theorem memWrite_next {sz : Size} {addr wdata : Word} {s t : State} (h : memWrite sz addr wdata s = .next t) :
    (∃ i, locate sz addr s = .index i
        ∧ t = (s.setMem (writeBE s.mem i (sizeBytes sz) wdata)).setResult (.ok respNone))
      ∨ (locate sz addr s = .neutralised ∧ t = s.setResult (.ok respNone))
      ∨ (∃ kind a24, GuardAbort kind a24 ∧ t = takeAbort kind .write a24 s) := by
  unfold memWrite at h
  split at h
  · rename_i i hi
    exact .inl ⟨i, hi, by simpa [complete, eq_comm] using h⟩
  · rename_i hn
    exact .inr (.inl ⟨hn, by simpa [complete, eq_comm] using h⟩)
  · rename_i hf
    exact .inr (.inr ⟨_, _, locate_fatal hf, by simpa [raiseAbort, eq_comm] using h⟩)
  · cases h

/-- An immediate fetch completes with `PC` past its slot. -/
theorem immediate_next {sz : Size} {s t : State} (h : immediate sz s = .next t) :
    t = (advancePc (slotBytes sz) s).setResult (.ok (respData (immValue sz s))) := by
  unfold immediate afterFetch at h
  split at h
  · simpa [complete, eq_comm] using h
  · cases h

/-- A decoded extension word completes with `PC` past it. -/
theorem indexed_next {da : Bool} {reg : Fin 8} {wl : Bool} {disp : BitVec 8} {s t : State}
    (h : indexed da reg wl disp s = .next t) :
    t = (advancePc 2 s).setResult (.ok (respData (indexSum da reg wl disp s))) := by
  simpa [indexed, complete, eq_comm] using h

/-- The last event of an abort is the transfer. -/
theorem abortEvents_last (l : List Event) (kind : AbortKind) (dir : Dir) (addr : Word) (s : State) :
    (l ++ abortEvents kind dir addr s).getLast? = some (Event.transfer Config.abortStatus) := by
  simp only [abortEvents, ← List.append_assoc, List.getLast?_append]
  rfl

/-- An abort releases the files once. -/
theorem abortEvents_releases (kind : AbortKind) (dir : Dir) (addr : Word) (s : State) :
    (abortEvents kind dir addr s).count .releaseFiles = 1 := by
  cases kind <;> cases h : s.cfg.diag <;> simp [abortEvents, h]

/-- An abort transfers once. -/
theorem abortEvents_transfers (kind : AbortKind) (dir : Dir) (addr : Word) (s : State) :
    (abortEvents kind dir addr s).count (.transfer Config.abortStatus) = 1 := by
  cases kind <;> cases h : s.cfg.diag <;> simp [abortEvents, h]

/-- Everything an instruction can do when it answers a next state. -/
inductive ExecCases (s t : State) : Prop where
  /-- it only reports a result: a guard query, a read, a neutralised write, a refusal -/
  | reports (r : CommandResult) (h : t = s.setResult r)
  /-- it takes an abort -/
  | aborts (hr : s.run = .running) (kind : AbortKind) (dir : Dir) (addr : Word) (h : t = takeAbort kind dir addr s)
      (hx : (kind = .explicit ∧ dir = .read) ∨ GuardAbort kind addr)
  /-- it advances `PC` and reports a result -/
  | advances (hr : s.run = .running) (n : Nat) (r : CommandResult) (h : t = (advancePc n s).setResult r)
  /-- it stores `n` bytes at `i` -/
  | stores (hr : s.run = .running) (i n : Nat) (v : Word) (hb : i + n ≤ s.cfg.memAloc.toNat)
      (hp : s.cfg.envTop.toNat ≤ i ∨ supervisor s = true)
      (h : t = (s.setMem (writeBE s.mem i n v)).setResult (.ok respNone))

theorem execCases_guard {dir : Dir} {addr : Word} {s t : State} (h : whenRunning s (guardQuery dir addr s) = .next t) :
    ExecCases s t := by
  obtain ⟨hr, h⟩ | ⟨-, h⟩ := whenRunning_next h
  · obtain ⟨p, h⟩ | ⟨kind, a24, hg, h⟩ := guardQuery_next h
    · exact .reports _ h
    · exact .aborts hr kind dir a24 h (.inr hg)
  · exact .reports _ h

theorem execCases_read {sz : Size} {addr : Word} {s t : State} (h : whenRunning s (memRead sz addr s) = .next t) :
    ExecCases s t := by
  obtain ⟨hr, h⟩ | ⟨-, h⟩ := whenRunning_next h
  · obtain ⟨v, h⟩ | ⟨kind, a24, hg, h⟩ := memRead_next h
    · exact .reports _ h
    · exact .aborts hr kind .read a24 h (.inr hg)
  · exact .reports _ h

theorem execCases_write {sz : Size} {addr wdata : Word} {s t : State}
    (h : whenRunning s (memWrite sz addr wdata s) = .next t) : ExecCases s t := by
  obtain ⟨hr, h⟩ | ⟨-, h⟩ := whenRunning_next h
  · obtain ⟨i, hi, h⟩ | ⟨-, h⟩ | ⟨kind, a24, hg, h⟩ := memWrite_next h
    · obtain ⟨-, hb, hp⟩ := locate_index hi
      exact .stores hr i _ wdata hb hp h
    · exact .reports _ h
    · exact .aborts hr kind .write a24 h (.inr hg)
  · exact .reports _ h

theorem execCases_immediate {sz : Size} {s t : State} (h : whenRunning s (immediate sz s) = .next t) :
    ExecCases s t := by
  obtain ⟨hr, h⟩ | ⟨-, h⟩ := whenRunning_next h
  · exact .advances hr _ _ (immediate_next h)
  · exact .reports _ h

theorem execCases_indexed {da wl : Bool} {reg : Fin 8} {disp : BitVec 8} {s t : State}
    (h : whenRunning s (indexed da reg wl disp s) = .next t) : ExecCases s t := by
  obtain ⟨hr, h⟩ | ⟨-, h⟩ := whenRunning_next h
  · exact .advances hr _ _ (indexed_next h)
  · exact .reports _ h

theorem execCases_idxGet {s t : State} (h : execIdxGet s = .next t) : ExecCases s t := by
  obtain ⟨hr, h⟩ | ⟨-, h⟩ := whenRunning_next h
  · unfold afterFetch at h
    split at h
    · exact .advances hr _ _ (indexed_next h)
    · cases h
  · exact .reports _ h

theorem execCases_abort {addr : Word} {s t : State} (h : execAbort addr s = .next t) : ExecCases s t := by
  obtain ⟨hr, h⟩ | ⟨-, h⟩ := whenRunning_next h
  · exact .aborts hr .explicit .read addr (by simpa [raiseAbort, eq_comm] using h) (.inl ⟨rfl, rfl⟩)
  · exact .reports _ h

/-- Every instruction's next state is one of `ExecCases`. -/
theorem exec_cases (i : Instr) {s t : State} (h : exec i s = .next t) : ExecCases s t := by
  cases i with
  | guardRd addr => exact execCases_guard h
  | guardWr addr => exact execCases_guard h
  | memRdB addr => exact execCases_read h
  | memRdW addr => exact execCases_read h
  | memRdL addr => exact execCases_read h
  | memWrB addr wdata => exact execCases_write h
  | memWrW addr wdata => exact execCases_write h
  | memWrL addr wdata => exact execCases_write h
  | idxGet => exact execCases_idxGet h
  | immGetB => exact execCases_immediate h
  | immGetW => exact execCases_immediate h
  | immGetL => exact execCases_immediate h
  | abort addr => exact execCases_abort h
  | extDnW reg ign disp => exact execCases_indexed h
  | extDnL reg ign disp => exact execCases_indexed h
  | extAnW reg ign disp => exact execCases_indexed h
  | extAnL reg ign disp => exact execCases_indexed h

/-- Everything one move of the host can do when the step answers a next state. -/
inductive MoveCases (m : HostMove) (s t : State) : Prop where
  /-- a request with a reserved command byte is refused -/
  | reserved (r : Request) (hm : m = .request r) (hd : decodeCommand r = .error .reservedCommand)
      (h : t = s.setResult (.refused .reservedCommand))
  /-- a request is executed -/
  | executes (r : Request) (i : Instr) (hm : m = .request r) (hd : decodeCommand r = .ok i) (h : exec i s = .next t)
  /-- HOST_RESTART -/
  | restarts (pc0 : Word) (hm : m = .restart pc0) (h : t = hostRestart pc0 s)
  /-- the host writes a register -/
  | writesD (i : Fin 8) (v : Word) (hm : m = .writeD i v) (h : t = s.setD i v)
  | writesA (i : Fin 8) (v : Word) (hm : m = .writeA i v) (h : t = s.setA i v)
  | writesSr (v : Half) (hm : m = .writeSr v) (h : t = s.setSr v)
  | writesPc (v : Word) (hm : m = .writePc v) (h : t = s.setPc v)
  /-- the host writes a byte of `MEM` -/
  | writesMem (a : Nat) (b : Byte) (hm : m = .writeMem a b) (ha : a < s.cfg.memAloc.toNat)
      (h : t = s.setMem (writeByte s.mem a b))
  /-- the host configures the block before the first command -/
  | configures (c : Config) (hm : m = .configure c) (hn : s.result = none) (hw : c.wf = true)
      (h : t = (s.setCfg c).setMem [])

/-- A decoder's refusal is that of a reserved command byte. -/
theorem decodeCommand_error {r : Request} {e : RefusedReason} (h : decodeCommand r = .error e) :
    e = .reservedCommand := by
  unfold decodeCommand withoutSize bySize at h
  split_ifs at h <;> (cases h; rfl)

theorem takeMove_cases {m : HostMove} {s t : State} (h : takeMove m s = .next t) : MoveCases m s t := by
  cases m with
  | request r =>
    simp only [takeMove, acceptRequest] at h
    split at h
    · rename_i i hd
      exact .executes r i rfl hd h
    · rename_i e hd
      obtain rfl := decodeCommand_error hd
      exact .reserved r rfl hd (by simpa [turnAway, eq_comm] using h)
  | restart pc0 => exact .restarts pc0 rfl (by simpa [takeMove, eq_comm] using h)
  | writeD i v => exact .writesD i v rfl (by simpa [takeMove, eq_comm] using h)
  | writeA i v => exact .writesA i v rfl (by simpa [takeMove, eq_comm] using h)
  | writeSr v => exact .writesSr v rfl (by simpa [takeMove, eq_comm] using h)
  | writePc v => exact .writesPc v rfl (by simpa [takeMove, eq_comm] using h)
  | writeMem a b =>
    simp only [takeMove, hostWriteMem] at h
    split at h
    · rename_i ha
      exact .writesMem a b rfl ha (by simpa [eq_comm] using h)
    · cases h
  | configure c =>
    simp only [takeMove, hostConfigure] at h
    split at h
    · cases h
    · rename_i hn
      split at h
      · rename_i hw
        exact .configures c rfl (by simpa using hn) hw (by simpa [eq_comm] using h)
      · cases h

/-- Everything a step can do when it answers a next state: nothing with no move left, else the next move is taken. -/
theorem step_cases {s t : State} (h : step s = .next t) :
    (s.host = [] ∧ t = s) ∨ (∃ m rest, s.host = m :: rest ∧ MoveCases m (s.setHost rest) t) := by
  unfold step takeNextMove at h
  split at h
  · rename_i hh
    exact .inl ⟨hh, by simpa [eq_comm] using h⟩
  · rename_i m rest hh
    exact .inr ⟨m, rest, hh, takeMove_cases h⟩

end Sys2Proof.Machine
end

