-- ==== Sys2Proof/Laws/PerInstr.lean ====
section
/-! SUPPORT. A statement for every instruction, made per constructor: its encoding carries the bits that its row of
spec/opcode_table.json fixes ("match" under "mask"). -/

namespace Sys2Proof.Laws.TableRow

/-- The bits an instruction is written as, as the opcode table numbers them: the command byte or the word. -/
def tableBits (i : Instr) : BitVec 16 :=
  match encode i with
  | .command r => r.cmd.setWidth 16
  | .extension w => w

/-- "mask" of the instruction's row: 0xFF for a command, 0x8800 for an extension word. -/
def tableMask (i : Instr) : BitVec 16 :=
  match encode i with
  | .command _ => 0x00FF
  | .extension _ => 0x8800

/-- "match" of the instruction's row. -/
def tableMatch (i : Instr) : BitVec 16 :=
  match i with
  | .guardRd _ => 0x00
  | .guardWr _ => 0x10
  | .memRdB _ => 0x20
  | .memRdW _ => 0x21
  | .memRdL _ => 0x22
  | .memWrB _ _ => 0x30
  | .memWrW _ _ => 0x31
  | .memWrL _ _ => 0x32
  | .idxGet => 0x40
  | .immGetB => 0x50
  | .immGetW => 0x51
  | .immGetL => 0x52
  | .abort _ => 0x60
  | .extDnW _ _ _ => 0x0000
  | .extDnL _ _ _ => 0x0800
  | .extAnW _ _ _ => 0x8000
  | .extAnL _ _ _ => 0x8800

/-- The encoding carries the row's fixed bits. -/
def Statement (i : Instr) : Prop := tableBits i &&& tableMask i = tableMatch i

theorem encodeExt_and_mask (da : Bool) (reg : Fin 8) (wl : Bool) (ign : BitVec 3) (disp : BitVec 8) :
    encodeExt da reg wl ign disp &&& 0x8800 = (BitVec.ofBool da ++ (0 : BitVec 3) ++ BitVec.ofBool wl ++ (0 : BitVec 11)) := by
  apply BitVec.eq_of_getLsbD_eq
  intro i hi
  simp only [encodeExt, BitVec.getLsbD_and, BitVec.getLsbD_append]
  interval_cases i <;> simp

theorem cmdByte_and_mask (op : BitVec 4) (sz : BitVec 2) :
    (cmdByte op sz).setWidth 16 &&& 0x00FF = (0 : BitVec 8) ++ op ++ (0 : BitVec 2) ++ sz := by
  revert op sz
  decide

theorem guardRd (addr : Word) : Statement (.guardRd addr) := cmdByte_and_mask 0 0

theorem guardWr (addr : Word) : Statement (.guardWr addr) := cmdByte_and_mask 1 0

theorem memRdB (addr : Word) : Statement (.memRdB addr) := cmdByte_and_mask 2 0

theorem memRdW (addr : Word) : Statement (.memRdW addr) := cmdByte_and_mask 2 1

theorem memRdL (addr : Word) : Statement (.memRdL addr) := cmdByte_and_mask 2 2

theorem memWrB (addr wdata : Word) : Statement (.memWrB addr wdata) := cmdByte_and_mask 3 0

theorem memWrW (addr wdata : Word) : Statement (.memWrW addr wdata) := cmdByte_and_mask 3 1

theorem memWrL (addr wdata : Word) : Statement (.memWrL addr wdata) := cmdByte_and_mask 3 2

theorem idxGet : Statement .idxGet := cmdByte_and_mask 4 0

theorem immGetB : Statement .immGetB := cmdByte_and_mask 5 0

theorem immGetW : Statement .immGetW := cmdByte_and_mask 5 1

theorem immGetL : Statement .immGetL := cmdByte_and_mask 5 2

theorem abort (addr : Word) : Statement (.abort addr) := cmdByte_and_mask 6 0

theorem extDnW (reg : Fin 8) (ign : BitVec 3) (disp : BitVec 8) : Statement (.extDnW reg ign disp) :=
  encodeExt_and_mask _ reg _ ign disp

theorem extDnL (reg : Fin 8) (ign : BitVec 3) (disp : BitVec 8) : Statement (.extDnL reg ign disp) :=
  encodeExt_and_mask _ reg _ ign disp

theorem extAnW (reg : Fin 8) (ign : BitVec 3) (disp : BitVec 8) : Statement (.extAnW reg ign disp) :=
  encodeExt_and_mask _ reg _ ign disp

theorem extAnL (reg : Fin 8) (ign : BitVec 3) (disp : BitVec 8) : Statement (.extAnL reg ign disp) :=
  encodeExt_and_mask _ reg _ ign disp

end Sys2Proof.Laws.TableRow
end

