-- ==== Sys2Proof/Tests/Slice0.lean ====
section
/-! SUPPORT. The model's own tests: the checks of WellFormed, decoding of words written out from the spec's tables, one
or two steps per instruction with the results of spec/95_test_vectors.md, and a witness of the hypotheses of each
statement that has some. -/

namespace Sys2Proof.Tests

open Sys2Proof Sys2Proof.Machine

/-! Small states. T0 is the configuration of spec/95_test_vectors.md section 0. -/

/-- T0 in user mode: the machine after reset. -/
def user : State := State.reset

/-- T0 in supervisor mode. -/
def sup : State := { State.reset with sr := 0x2000 }

/-- T0 in user mode with `IO_THROUGH = 1`. -/
def through : State := { State.reset with cfg := { Config.t0 with ioThrough := true } }

/-- T0 in supervisor mode, held in `Aborting`. -/
def held : State := takeAbort .explicit .read 0x00C12345 sup

/-- A state with these bytes in `MEM`. -/
def withBytes (m : Memory) (s : State) : State := { s with mem := m }

/-- A state with `PC` at `a`. -/
def atPc (a : Word) (s : State) : State := { s with pc := a }

/-- A state whose host makes this one move next. -/
def moving (m : HostMove) (s : State) : State := { s with host := [m] }

/-- A request with this command byte. -/
def ask (cmd : BitVec 8) (addr wdata : Word) : Request := { cmd := cmd, addr := addr, wdata := wdata }

/-- The state after a step that goes on. -/
def nextOf (o : StepOutcome) : Option State :=
  match o with
  | .next t => some t
  | .fault _ => none
  | .refused _ => none

/-- What a step that goes on reports. -/
def resultOf (o : StepOutcome) : Option CommandResult :=
  match o with
  | .next t => t.result
  | .fault _ => none
  | .refused _ => none

/-- The fault of a step that stops. -/
def faultOf (o : StepOutcome) : Option Fault :=
  match o with
  | .next _ => none
  | .fault f => some f
  | .refused _ => none

/-- A property holds of the state after a step, which goes on. -/
def after (o : StepOutcome) (p : State → Bool) : Bool :=
  match o with
  | .next t => p t
  | .fault _ => false
  | .refused _ => false

/-- A step that goes on to a state with a property. -/
theorem exists_next {o : StepOutcome} {p : State → Bool} (h : after o p = true) : ∃ t, o = .next t ∧ p t = true := by
  cases o with
  | next t => exact ⟨t, rfl, h⟩
  | fault f => cases h
  | refused r => cases h

/-- A step that faults. -/
theorem is_fault {o : StepOutcome} {f : Fault} (h : faultOf o = some f) : o = .fault f := by
  cases o with
  | next t => cases h
  | fault g => cases h; rfl
  | refused r => cases h

/-! WellFormed: a term that each check refuses, beside one at the boundary that it accepts (R5, R54). -/

theorem test_wf_rejects_env_top_above_mem_aloc :
    Config.wf { memAloc := 0x1000, envTop := 0x1001, ioThrough := false, diag := false } = false := by decide

theorem test_wf_rejects_mem_aloc_in_the_io_region :
    Config.wf { memAloc := 0xC00001, envTop := 0, ioThrough := false, diag := false } = false := by decide

theorem test_wf_accepts_the_largest_buffer :
    Config.wf { memAloc := 0xC00000, envTop := 0xC00000, ioThrough := true, diag := true } = true := by decide

/-- spec/95_test_vectors.md section 2.5: each refused byte beside the nearest accepted one. -/
theorem test_wf_rejects_reserved_commands :
    [0x23, 0x24, 0x01, 0x41, 0x53, 0x62, 0x70, 0xFF].map commandDefined = List.replicate 8 false
    ∧ [0x22, 0x20, 0x00, 0x40, 0x52, 0x60].map commandDefined = List.replicate 6 true := by decide

/-! Decoding, from the fields of R51 and R52 and of R56. -/

theorem test_decode_guard : decodeTableWord 8 0b00000000 = some (.guardRd 0)
    ∧ decodeTableWord 8 0b00010000 = some (.guardWr 0) := by decide

theorem test_decode_mem_rd : decodeTableWord 8 0b00100000 = some (.memRdB 0)
    ∧ decodeTableWord 8 0b00100001 = some (.memRdW 0)
    ∧ decodeTableWord 8 0b00100010 = some (.memRdL 0) := by decide

theorem test_decode_mem_wr : decodeTableWord 8 0b00110000 = some (.memWrB 0 0)
    ∧ decodeTableWord 8 0b00110001 = some (.memWrW 0 0)
    ∧ decodeTableWord 8 0b00110010 = some (.memWrL 0 0) := by decide

theorem test_decode_decoder_commands : decodeTableWord 8 0b01000000 = some .idxGet
    ∧ decodeTableWord 8 0b01010000 = some .immGetB
    ∧ decodeTableWord 8 0b01010001 = some .immGetW
    ∧ decodeTableWord 8 0b01010010 = some .immGetL := by decide

theorem test_decode_abort : decodeTableWord 8 0b01100000 = some (.abort 0) := by decide

/-- The words of X1, X3, X6, X8, X11, X12 of spec/95_test_vectors.md, bit by bit. -/
theorem test_decode_extension_words :
    decodeExt 0b0000100000010000 = .extDnL 0 0 16
    ∧ decodeExt 0b0000111100010000 = .extDnL 0 7 16
    ∧ decodeExt 0b1000100011111110 = .extAnL 0 0 254
    ∧ decodeExt 0b1111100001111111 = .extAnL 7 0 127
    ∧ decodeExt 0b0011000000000000 = .extDnW 3 0 0
    ∧ decodeExt 0b1011011011110000 = .extAnW 3 6 240 := by decide

/-- The operands come from the request: `MEM_WR.L 0x00003000, 0x12345678` (R62). -/
theorem test_decode_operands :
    (decodeCommand (ask 0x32 0x3000 0x12345678)).toOption = some (.memWrL 0x3000 0x12345678) := by decide

/-- The reserved bytes of spec/95_test_vectors.md section 2.5. -/
theorem test_decode_rejects : [0x23, 0x24, 0x01, 0x41, 0x53, 0x62, 0x70, 0xFF].map (decodeTableWord 8)
    = List.replicate 8 none := by decide

/-! The Access Guard (spec/95_test_vectors.md section 2.1). -/

/-- G9: the I/O test precedes the `S` test. -/
theorem test_guard_rd_io_before_mode :
    resultOf (exec (.guardRd 0x00C00000) user) = some (.aborted .ioRegion .read 0x00C00000) := by decide

/-- G12 and G3: masked to LOW in supervisor mode; the guard itself has no fast path in user mode. -/
theorem test_guard_rd_mode : resultOf (exec (.guardRd 0xFF001000) sup) = some (.ok (respPermit true))
    ∧ resultOf (exec (.guardRd 0x00003000) user) = some (.aborted .invalidAddress .read 0x00003000) := by decide

/-- G6 and G5: the allocation bound. -/
theorem test_guard_wr_bound :
    resultOf (exec (.guardWr 0x00100000) sup) = some (.aborted .invalidAddress .write 0x00100000)
    ∧ resultOf (exec (.guardWr 0x000FFFFF) sup) = some (.ok (respPermit true)) := by decide

/-- G10: pass-through, user mode irrelevant. -/
theorem test_guard_wr_through : resultOf (exec (.guardWr 0x00FFFFFF) through) = some (.ok (respPermit false)) := by decide

/-! The Memory Accessor (spec/95_test_vectors.md section 2.2). -/

/-- A12: zero-extended. -/
theorem test_mem_rd_b_zero_extends :
    resultOf (exec (.memRdB 0x4000) (withBytes [(0x4000, 0xFF)] sup)) = some (.ok (respData 0xFF)) := by decide

/-- A26: the last byte of LOW, in user mode. -/
theorem test_mem_rd_b_user_low :
    resultOf (exec (.memRdB 0x1FFF) user) = some (.aborted .invalidAddress .read 0x1FFF) := by decide

/-- A8: an odd alias. -/
theorem test_mem_rd_w_odd_alias :
    resultOf (exec (.memRdW 0xFF003001) (withBytes [(0x3000, 0x12), (0x3001, 0x34), (0x3002, 0x56), (0x3003, 0x78)] user))
      = some (.ok (respData 0x3456)) := by decide

/-- A18: the second byte would be `MEM[0x100000]`. -/
theorem test_mem_rd_w_span : faultOf (exec (.memRdW 0x000FFFFF) sup) = some .spanOutOfBuffer := by decide

/-- A7. -/
theorem test_mem_rd_l_big_endian :
    resultOf (exec (.memRdL 0x01003000) (withBytes [(0x3000, 0x12), (0x3001, 0x34), (0x3002, 0x56), (0x3003, 0x78)] user))
      = some (.ok (respData 0x12345678)) := by decide

/-- A31 and A21: neutralised without a span fault; the start address decides. -/
theorem test_mem_rd_l_top : resultOf (exec (.memRdL 0x00FFFFFF) through) = some (.ok (respData 0))
    ∧ resultOf (exec (.memRdL 0x00BFFFFE) sup) = some (.aborted .invalidAddress .read 0x00BFFFFE) := by decide

/-- A10: the low byte is stored. -/
theorem test_mem_wr_b_low_byte :
    after (exec (.memWrB 0x3003 0x123456AB) sup) (fun t => t.mem == [(0x3003, 0xAB)] && t.result == some (.ok respNone))
      = true := by decide

/-- Writing what an unlisted byte reads as removes the cell. -/
theorem test_mem_wr_b_canonical :
    after (exec (.memWrB 0x3003 0xAA00) (withBytes [(0x3003, 0xAB)] sup)) (fun t => t.mem == []) = true := by decide

/-- A14: straddles `ENV_TOP`. -/
theorem test_mem_wr_w_straddles :
    after (exec (.memWrW 0x1FFF 0xA1B2) sup) (fun t => t.mem == [(0x1FFF, 0xA1), (0x2000, 0xB2)]) = true := by decide

/-- A9: the high half of `WDATA` is ignored. -/
theorem test_mem_wr_w_overwrites :
    after (exec (.memWrW 0x3001 0xCAFEBEEF)
        (withBytes [(0x3000, 0x12), (0x3001, 0x34), (0x3002, 0x56), (0x3003, 0x78)] user))
      (fun t => t.mem == [(0x3000, 0x12), (0x3001, 0xBE), (0x3002, 0xEF), (0x3003, 0x78)]) = true := by decide

/-- S6. -/
theorem test_mem_wr_l_bytes :
    after (exec (.memWrL 0x3000 0x12345678) user)
      (fun t => t.mem == [(0x3000, 0x12), (0x3001, 0x34), (0x3002, 0x56), (0x3003, 0x78)]) = true := by decide

/-- A28: an abort writes no byte. -/
theorem test_mem_wr_l_aborts :
    after (exec (.memWrL 0x0400 1) user)
      (fun t => t.mem == [] && t.result == some (.aborted .invalidAddress .write 0x0400) && t.run == .aborting
        && t.fault == { valid := true, kind := 2, dir := 1, addr := 0x0400 }
        && t.out == [.message .invalidAddress .write 0x0400, .diagLine 0x0400, .releaseFiles, .transfer 2]) = true := by
  decide

/-! The Operand Decoder (spec/95_test_vectors.md section 2.3). -/

/-- X12: `DA = 1`, `REG = 3`, `WL = 0`, `IGN = 110`; -1 plus -16. -/
theorem test_idx_get_word_index :
    after (exec .idxGet (atPc 0x3000 (withBytes [(0x3000, 0xB6), (0x3001, 0xF0)] (sup.setA 3 0x0001FFFF))))
      (fun t => t.pc == 0x3002 && t.result == some (.ok (respData 0xFFFFFFEF))) = true := by decide

/-- X13 and X14: the end of the buffer. -/
theorem test_idx_get_last_slot :
    faultOf (exec .idxGet (atPc 0x000FFFFF user)) = some .fetchOutOfBuffer
    ∧ after (exec .idxGet (atPc 0x000FFFFE (withBytes [(0xFFFFE, 0x08), (0xFFFFF, 0x02)] (user.setD 0 5))))
        (fun t => t.pc == 0x00100000 && t.result == some (.ok (respData 7))) = true := by decide

/-- I4: the padding byte is ignored, `PC` advances by 2. -/
theorem test_imm_get_b_padding :
    after (exec .immGetB (atPc 0x3000 (withBytes [(0x3000, 0xAB), (0x3001, 0x7F)] sup)))
      (fun t => t.pc == 0x3002 && t.result == some (.ok (respData 0x7F))) = true := by decide

/-- I5: not sign-extended. -/
theorem test_imm_get_w_zero_extends :
    resultOf (exec .immGetW (atPc 0x3000 (withBytes [(0x3000, 0xFF), (0x3001, 0xFE)] sup)))
      = some (.ok (respData 0xFFFE)) := by decide

/-- I10: a fetch from LOW in user mode. -/
theorem test_imm_get_w_user_low :
    after (exec .immGetW (atPc 0x0400 (withBytes [(0x0400, 0x12), (0x0401, 0x34)] user)))
      (fun t => t.pc == 0x0402 && t.result == some (.ok (respData 0x1234))) = true := by decide

/-- I3. -/
theorem test_imm_get_l_big_endian :
    after (exec .immGetL (atPc 0x3000 (withBytes [(0x3000, 1), (0x3001, 2), (0x3002, 3), (0x3003, 4)] sup)))
      (fun t => t.pc == 0x3004 && t.result == some (.ok (respData 0x01020304))) = true := by decide

/-- I8 and I9. -/
theorem test_imm_get_l_last_slot :
    after (exec .immGetL (atPc 0x000FFFFC user)) (fun t => t.pc == 0x00100000 && t.result == some (.ok (respData 0))) = true
    ∧ faultOf (exec .immGetL (atPc 0x000FFFFD user)) = some .fetchOutOfBuffer := by decide

/-- X4: word index of a data register. -/
theorem test_ext_dn_w :
    after (exec (.extDnW 0 0 0x10) (atPc 0x3000 (user.setD 0 0x00018000)))
      (fun t => t.pc == 0x3002 && t.result == some (.ok (respData 0xFFFF8010))) = true := by decide

/-- X5 and X9: long index of a data register, and the wrap to zero. -/
theorem test_ext_dn_l :
    resultOf (exec (.extDnL 0 0 0x10) (user.setD 0 0x00018000)) = some (.ok (respData 0x00018010))
    ∧ resultOf (exec (.extDnL 3 0 0x01) (user.setD 3 0xFFFFFFFF)) = some (.ok (respData 0)) := by decide

/-- X7: word index of an address register, displacement -128. -/
theorem test_ext_an_w :
    resultOf (exec (.extAnW 0 0 0x80) (user.setA 0 0x12347FFF)) = some (.ok (respData 0x7F7F)) := by decide

/-- X8: register 7, displacement 127, wraps. -/
theorem test_ext_an_l :
    resultOf (exec (.extAnL 7 0 0x7F) (user.setA 7 0xFFFFFFFF)) = some (.ok (respData 0x7E)) := by decide

/-! Aborts, hold, restart (spec/95_test_vectors.md section 2.4 and P3). -/

/-- B2: the address is not masked. -/
theorem test_abort_unmasked :
    after (exec (.abort 0xFFC12345) user)
      (fun t => t.run == .aborting && t.status == 2 && t.fault == { valid := true, kind := 3, dir := 0, addr := 0xFFC12345 }
        && t.out == [.diagLine 0xFFC12345, .releaseFiles, .transfer 2]) = true := by decide

/-- B3: the register dump with `DIAG = 1`. -/
theorem test_abort_register_dump :
    after (exec (.abort 0) { atPc 0x3000 (sup.setD 7 7) with cfg := { Config.t0 with diag := true } })
      (fun t => t.out == [.diagLine 0, .releaseFiles,
        .regDump (State.reset.dreg.set 7 7) State.reset.areg 0x3000 0x2000, .transfer 2]) = true := by decide

/-- B5: a command under the hold changes nothing of the block. -/
theorem test_hold : nextOf (exec (.abort 1) held) = some { held with result := some (.refused .aborting) } := by decide

/-- B6: the return from an abort. -/
theorem test_restart : nextOf (step (moving (.restart 0x3000) held)) = some { held with run := .running, pc := 0x3000 } := by
  decide

/-- R118 step 1 before step 2: a reserved byte under the hold. -/
theorem test_reserved_before_hold :
    resultOf (step (moving (.request (ask 0x70 0 0)) held)) = some (.refused .reservedCommand) := by decide

/-- R122: the digits of `C12345` and `00C12345`, and of `001000`. -/
theorem test_report_digits : eventHex (.diagLine 0x00C12345) = ['0', '0', 'C', '1', '2', '3', '4', '5']
    ∧ eventHex (.message .invalidAddress .read 0x001000) = ['0', '0', '1', '0', '0', '0'] := by decide

/-- A word placed by the host's function is what the next step runs: the word `88 FE` (P2 step 2, with `A[0] = 0`). -/
theorem test_with_fetch_word :
    resultOf (step (State.reset.withFetchWord 16 0x88FE)) = some (.ok (respData 0xFFFFFFFE))
    ∧ resultOf (step (State.reset.withFetchWord 8 0x60)) = some (.aborted .explicit .read 0) := by decide

/-! Witnesses: concrete states and operands that meet the hypotheses of each statement that has some. -/

theorem witness_DecodeOfEncodeIsTheInstruction : Instr.wf (.extAnL 7 7 0x80) = true ∧ Instr.wf (.memWrL 0xFFFFFFFF 1) = true := by
  decide

theorem witness_DecodedWordsEncodeBack : decodeCommand (ask 0x32 1 2) = .ok (.memWrL 1 2) := by rfl

theorem witness_ReservedCommandBytesAreRefused :
    (moving (.request (ask 0x70 0 0)) user).host = .request (ask 0x70 0 0) :: []
    ∧ commandDefined (ask 0x70 0 0).cmd = false := by decide

theorem witness_StepRunsTheDecodedCommand :
    (moving (.request (ask 0x21 0x3000 0)) user).host = .request (ask 0x21 0x3000 0) :: []
    ∧ decodeCommand (ask 0x21 0x3000 0) = .ok (.memRdW 0x3000) := ⟨rfl, rfl⟩

theorem witness_IdxGetRunsItsExtensionWord :
    let s := moving (.request (ask 0x40 0 0)) (atPc 0x000FFFFE user)
    s.host = .request (ask 0x40 0 0) :: [] ∧ (ask 0x40 0 0).cmd = 0x40 ∧ s.run = .running
    ∧ s.pc.toNat + 2 ≤ s.cfg.memAloc.toNat := by decide

theorem witness_HostMovesWriteOnlyTheirField :
    (moving (.writeD 7 1) user).host = .writeD 7 1 :: [] ∧ (moving (.writeA 0 1) user).host = .writeA 0 1 :: []
    ∧ (moving (.writeSr 0x2000) user).host = .writeSr 0x2000 :: [] ∧ (moving (.writePc 1) user).host = .writePc 1 :: []
    ∧ ((moving (.writeMem 0xFFFFF 1) user).host = .writeMem 0xFFFFF 1 :: [] ∧ 0xFFFFF < user.cfg.memAloc.toNat)
    ∧ ((moving (.writeMem 0x100000 1) user).host = .writeMem 0x100000 1 :: [] ∧ user.cfg.memAloc.toNat ≤ 0x100000)
    ∧ user.host = [] := by decide

theorem witness_HostRestartSetsRunAndPcOnly : (moving (.restart 0x3000) held).host = .restart 0x3000 :: [] := by decide

theorem witness_ConfigurationIsStableDuringARun :
    (∃ t, step (moving (.writeSr 0) held) = .next t ∧ (t.result.isSome && held.result.isSome) = true)
    ∧ (∃ t, step (moving (.configure { Config.t0 with memAloc := 0xC00000 }) user) = .next t
        ∧ (t.cfg.memAloc == 0xC00000) = true) :=
  ⟨exists_next (p := fun t => t.result.isSome && held.result.isSome) (by decide),
    exists_next (p := fun t => t.cfg.memAloc == 0xC00000) (by decide)⟩

theorem witness_ConfigureActsBeforeTheFirstCommandOnly :
    (moving (.configure Config.t0) user).host = .configure Config.t0 :: [] ∧ user.result = none ∧ Config.t0.wf = true
    ∧ Config.wf { Config.t0 with memAloc := 0x1FFF } = false
    ∧ held.result = some (.aborted .explicit .read 0x00C12345) := by decide

theorem witness_EveryStepKeepsTheInvariant :
    machineInv (moving (.request (ask 0x30 0xFFFFF 1)) user) = true
    ∧ ∃ t, step (moving (.request (ask 0x30 0xFFFFF 1)) user) = .next t ∧ (t.mem == [(0xFFFFF, 1)]) = true :=
  ⟨by decide, exists_next (p := fun t => t.mem == [(0xFFFFF, 1)]) (by decide)⟩

theorem witness_CanonicalMemoriesThatReadAlikeAreEqual :
    Memory.wf [(0, 1), (5, 2)] = true ∧ Memory.wf (writeByte (writeByte [] 5 2) 0 1) = true
    ∧ ∀ a, readByte [(0, 1), (5, 2)] a = readByte (writeByte (writeByte [] 5 2) 0 1) a :=
  ⟨by decide, by decide, fun _ => rfl⟩

theorem witness_GuardDecidesByRegionThenModeAndBound :
    user.run = .running
    ∧ (0xC00000 ≤ (0xC00000 : Word) &&& 0x00FFFFFF ∧ through.cfg.ioThrough = true)
    ∧ (0xC00000 ≤ (0xFFFFFFFF : Word) &&& 0x00FFFFFF ∧ user.cfg.ioThrough = false)
    ∧ ((0xBFFFFF : Word) &&& 0x00FFFFFF < 0xC00000 ∧ sup.cfg.memAloc ≤ (0xBFFFFF : Word) &&& 0x00FFFFFF)
    ∧ ((0x0FFFFF : Word) &&& 0x00FFFFFF < 0xC00000 ∧ supervisor user = false)
    ∧ ((0x0FFFFF : Word) &&& 0x00FFFFFF < 0xC00000 ∧ supervisor sup = true
        ∧ (0x0FFFFF : Word) &&& 0x00FFFFFF < sup.cfg.memAloc) := by decide

theorem witness_GuardVerdictIgnoresTheDirection : user.run = .running ∧ sup.run = .running := by decide

theorem witness_AccessVerdictByRegion :
    (user.run = .running ∧ user.cfg.wf = true ∧ through.run = .running ∧ through.cfg.wf = true)
    ∧ (regionOf user.cfg (mask24 0x1FFF) = .low ∧ supervisor user = false)
    ∧ (regionOf sup.cfg (mask24 0x1FFF) = .low ∧ supervisor sup = true)
    ∧ (regionOf user.cfg (mask24 0x2000) = .ram ∧ regionOf user.cfg (mask24 0xFFFFF) = .ram)
    ∧ (regionOf sup.cfg (mask24 0x100000) = .hole ∧ regionOf sup.cfg (mask24 0xBFFFFF) = .hole)
    ∧ (regionOf sup.cfg (mask24 0xC00000) = .io ∧ sup.cfg.ioThrough = false)
    ∧ (regionOf through.cfg (mask24 0xFFFFFFFF) = .io ∧ through.cfg.ioThrough = true) := by decide

theorem witness_MemReadReturnsTheBytes :
    user.run = .running
    ∧ (performed 0xFFFFF user = true ∧ 0xFFFFF = (mask24 0xFFFFF).toNat)
    ∧ (performed 0xFFFFE user = true ∧ 0xFFFFE = (mask24 0xFFFFE).toNat ∧ 0xFFFFE + 2 ≤ user.cfg.memAloc.toNat)
    ∧ (performed 0xFFFFC user = true ∧ 0xFFFFC = (mask24 0xFFFFC).toNat ∧ 0xFFFFC + 4 ≤ user.cfg.memAloc.toNat) := by decide

theorem witness_MemWriteStoresTheBytes :
    sup.run = .running
    ∧ (performed 0 sup = true ∧ 0 = (mask24 0).toNat)
    ∧ (performed 0xFFFFE sup = true ∧ 0xFFFFE = (mask24 0xFFFFE).toNat ∧ 0xFFFFE + 2 ≤ sup.cfg.memAloc.toNat)
    ∧ (performed 0xFFFFC sup = true ∧ 0xFFFFC = (mask24 0xFFFFC).toNat ∧ 0xFFFFC + 4 ≤ sup.cfg.memAloc.toNat) := by decide

theorem witness_PassThroughNeutralisesTheIoRegion :
    through.run = .running ∧ through.cfg.wf = true ∧ through.cfg.ioThrough = true
    ∧ 0xC00000 ≤ (0xC00000 : Word) &&& 0x00FFFFFF ∧ 0xC00000 ≤ (0xFFFFFFFF : Word) &&& 0x00FFFFFF := by decide

theorem witness_SpanPastTheBufferFaults :
    sup.run = .running ∧ (performed 0xFFFFF sup = true ∧ sup.cfg.memAloc.toNat < (mask24 0xFFFFF).toNat + sizeBytes .word)
    ∧ exec (memRdOf .word 0xFFFFF) sup = .fault .spanOutOfBuffer ∧ exec (memRdOf .long 0xFFFFD) sup = .fault .spanOutOfBuffer :=
  ⟨by decide, by decide, is_fault (by decide), is_fault (by decide)⟩

theorem witness_ReadAfterWriteReturnsTheValue :
    (user.run = .running ∧ performed 0x01002000 user = true ∧ fits .long 0x01002000 user = true)
    ∧ (through.run = .running ∧ through.cfg.wf = true ∧ through.cfg.ioThrough = true ∧ 0xC00000 ≤ mask24 0xC00000) := by decide

theorem witness_DataIsBigEndian :
    user.run = .running ∧ performed 0xFFFFC user = true ∧ fits .long 0xFFFFC user = true := by decide

theorem witness_MixedWidthsSeeTheSameBytes :
    sup.run = .running ∧ sup.cfg.wf = true ∧ performed 0x1FFE sup = true ∧ fits .long 0x1FFE sup = true := by decide

theorem witness_MaskedAddressesAreAliases :
    (atPc 0x1000000 user).run = .running ∧ (atPc 0x1000000 user).cfg.wf = true
    ∧ 0x1000000 ≤ (atPc 0x1000000 user).pc.toNat := by decide

theorem witness_UserModeNeverWritesLow :
    user.sr.getLsbD 13 = false
    ∧ (∃ t, exec (.memWrW 0x2000 0xA1B2) user = .next t ∧ (t.mem == [(0x2000, 0xA1), (0x2001, 0xB2)]) = true)
    ∧ 0x1FFF < user.cfg.envTop.toNat :=
  ⟨by decide, exists_next (p := fun t => t.mem == [(0x2000, 0xA1), (0x2001, 0xB2)]) (by decide), by decide⟩

theorem witness_UserModeNeverReadsLowThroughTheAccessor :
    user.sr.getLsbD 13 = false ∧ agreeFrom user.cfg.envTop.toNat user.mem [(0x1FFF, 1)]
    ∧ (∃ t, exec (memRdOf .word 0x2000) user = .next t ∧ (t.result == some (.ok (respData 0))) = true)
    ∧ (∃ t, exec (.guardRd 0x2000) user = .next t ∧ (t.run == .aborting) = true)
    ∧ (∃ t, exec (.guardWr 0x2000) user = .next t ∧ (t.run == .aborting) = true) := by
  refine ⟨by decide, ?_, exists_next (p := fun t => t.result == some (.ok (respData 0))) (by decide),
    exists_next (p := fun t => t.run == .aborting) (by decide), exists_next (p := fun t => t.run == .aborting) (by decide)⟩
  intro a ha
  have h : 0x1FFF ≠ a := by
    have e : user.cfg.envTop.toNat = 0x2000 := by decide
    omega
  exact (if_neg h).symm

theorem witness_IdxGetAddsIndexAndDisplacement :
    let s := atPc 0x000FFFFE (withBytes [(0xFFFFE, 0xF8), (0xFFFFF, 0x7F)] (user.setA 7 0xFFFFFFFF))
    s.run = .running ∧ s.pc.toNat + 2 ≤ s.cfg.memAloc.toNat
    ∧ (0xF87F : Half) = readByte s.mem s.pc.toNat ++ readByte s.mem (s.pc.toNat + 1)
    ∧ (0xFFFFFFFF : Word) = (if (0xF87F : Half).getLsbD 15 then s.areg.get ((0xF87F : Half).extractLsb' 12 3).toFin
        else s.dreg.get ((0xF87F : Half).extractLsb' 12 3).toFin) := by decide

theorem witness_ImmGetReturnsTheSlot :
    user.run = .running
    ∧ (0xFFFFE = (atPc 0xFFFFE user).pc.toNat ∧ 0xFFFFE + 2 ≤ user.cfg.memAloc.toNat)
    ∧ (0xFFFFC = (atPc 0xFFFFC user).pc.toNat ∧ 0xFFFFC + 4 ≤ user.cfg.memAloc.toNat) := by decide

theorem witness_FetchPastTheBufferFaults :
    user.run = .running ∧ consumed .immGetL = some 4 ∧ user.cfg.memAloc.toNat < (atPc 0xFFFFD user).pc.toNat + 4
    ∧ (atPc 0xFFFFC user).pc.toNat + 4 ≤ user.cfg.memAloc.toNat := by decide

theorem witness_PcAdvancesByTheBytesConsumed :
    (isOperandWord .immGetL = false ∧ consumed .immGetL = some 4 ∧ (atPc 0xFFFFC user).run = .running
      ∧ ∃ t, exec .immGetL (atPc 0xFFFFC user) = .next t ∧ (t.pc == 0x100000) = true)
    ∧ (isOperandWord (.abort 0) = false ∧ consumed (.abort 0) = none
      ∧ ∃ t, exec (.abort 0) user = .next t ∧ (t.run == .aborting) = true)
    ∧ (∃ t, exec .immGetL held = .next t ∧ (t.result == some (.refused .aborting)) = true) :=
  ⟨⟨by decide, by decide, by decide, exists_next (p := fun t => t.pc == 0x100000) (by decide)⟩,
    ⟨by decide, by decide, exists_next (p := fun t => t.run == .aborting) (by decide)⟩,
    exists_next (p := fun t => t.result == some (.refused .aborting)) (by decide)⟩

theorem witness_DecoderDependsOnItsSlotOnly :
    consumed .idxGet = some 2 ∧ user.run = .running ∧ (∃ t, exec .idxGet user = .next t ∧ (t.pc == 2) = true)
    ∧ ∀ k, k < 2 → readByte [(2, 1)] (user.pc.toNat + k) = readByte user.mem (user.pc.toNat + k) :=
  ⟨by decide, by decide, exists_next (p := fun t => t.pc == 2) (by decide), by decide⟩

theorem witness_DecoderAgreesWithTheAccessorInRam :
    user.run = .running ∧ user.cfg.wf = true
    ∧ (user.cfg.envTop ≤ (atPc 0xFFFFE user).pc ∧ (atPc 0xFFFFE user).pc.toNat + 2 ≤ user.cfg.memAloc.toNat)
    ∧ (user.cfg.envTop ≤ (atPc 0x2000 user).pc ∧ (atPc 0x2000 user).pc.toNat + 4 ≤ user.cfg.memAloc.toNat)
    ∧ ((atPc 0x1FFF user).pc < user.cfg.envTop ∧ user.sr.getLsbD 13 = false
        ∧ (atPc 0x1FFF user).pc.toNat + 4 ≤ user.cfg.memAloc.toNat) := by decide

theorem witness_ScaleBitsAreIgnored :
    let s := withBytes [(0, 0x08), (1, 0x10)] user
    s.run = .running ∧ s.pc.toNat + 2 ≤ s.cfg.memAloc.toNat
    ∧ readByte s.mem s.pc.toNat ++ readByte s.mem (s.pc.toNat + 1) = (0x0810 : Half)
    ∧ readByte [(0, 0x0F), (1, 0x10)] s.pc.toNat ++ readByte [(0, 0x0F), (1, 0x10)] (s.pc.toNat + 1) = (0x0F10 : Half)
    ∧ (0x0810 : Half) &&& 0xF8FF = 0x0F10 &&& 0xF8FF
    ∧ ∃ t, exec .idxGet s = .next t ∧ (t.pc == 2) = true :=
  ⟨by decide, by decide, by decide, by decide, by decide, exists_next (p := fun t => t.pc == 2) (by decide)⟩

theorem witness_ExtensionWordsGiveIndexPlusDisplacement : user.run = .running ∧ sup.run = .running := by decide

theorem witness_FetchSeesTheStoreBeforeIt :
    user.run = .running
    ∧ (performed 0xFFFFE user = true ∧ mask24 0xFFFFE = (atPc 0xFFFFE user).pc ∧ fits .word 0xFFFFE user = true)
    ∧ (performed 0xFF002000 user = true ∧ mask24 0xFF002000 = (atPc 0x2000 user).pc ∧ fits .long 0xFF002000 user = true) := by decide

theorem witness_AbortCommandTakesTheAbort : user.run = .running ∧ sup.run = .running := by decide

theorem witness_EveryAbortRunsTheOneSequence :
    sup.run = .running ∧ ∃ t, exec (.memWrL 0xC00000 1) sup = .next t ∧ (t.run == .aborting) = true :=
  ⟨by decide, exists_next (p := fun t => t.run == .aborting) (by decide)⟩

theorem witness_EveryAbortHasStatusTwoAndReleasesOnce :
    user.run = .running ∧ ∃ t, exec (.guardRd 0x00BFFFFF) user = .next t ∧ (t.run == .aborting) = true :=
  ⟨by decide, exists_next (p := fun t => t.run == .aborting) (by decide)⟩

theorem witness_AbortKindsHaveTheirCauses :
    user.run = .running
    ∧ (∃ t, exec (.memRdB 0x12C00000) user = .next t ∧ (t.result == some (.aborted .ioRegion .read 0xC00000)) = true)
    ∧ (∃ t, exec (.memWrB 0xBFFFFF 1) user = .next t ∧ (t.result == some (.aborted .invalidAddress .write 0xBFFFFF)) = true)
    ∧ (∃ t, exec (.abort 0xFFFFFFFF) user = .next t ∧ (t.result == some (.aborted .explicit .read 0xFFFFFFFF)) = true) :=
  ⟨by decide, exists_next (p := fun t => t.result == some (.aborted .ioRegion .read 0xC00000)) (by decide),
    exists_next (p := fun t => t.result == some (.aborted .invalidAddress .write 0xBFFFFF)) (by decide),
    exists_next (p := fun t => t.result == some (.aborted .explicit .read 0xFFFFFFFF)) (by decide)⟩

theorem witness_DiagOnlyAddsTheRegisterDump : ∃ t, exec (.abort 0) user = .next t ∧ (t.out.length == 3) = true :=
  exists_next (p := fun t => t.out.length == 3) (by decide)

theorem witness_HoldRefusesEveryCommand : held.run = .aborting := by decide

theorem witness_OnlyRestartLiftsTheHold :
    (user.run = .running
      ∧ ∃ t, step (moving (.request (ask 0x60 0 0)) user) = .next t ∧ (t.run == .aborting) = true)
    ∧ (held.run = .aborting ∧ ∃ t, step (moving (.restart 0) held) = .next t ∧ (t.run == .running) = true) :=
  ⟨⟨by decide, exists_next (p := fun t => t.run == .aborting) (by decide)⟩,
    ⟨by decide, exists_next (p := fun t => t.run == .running) (by decide)⟩⟩

theorem witness_TraceGrowsOnlyByAborts :
    (∃ t, step (moving (.request (ask 0x20 0 0)) user) = .next t ∧ (t.out.length == 4) = true)
    ∧ ∃ t, step user = .next t ∧ (t.out == []) = true :=
  ⟨exists_next (p := fun t => t.out.length == 4) (by decide), exists_next (p := fun t => t.out == []) (by decide)⟩

theorem witness_CommandsNeverWriteTheHostsRegisters :
    ∃ t, exec .idxGet user = .next t ∧ (!wasAborted t) = true :=
  exists_next (p := fun t => !wasAborted t) (by decide)

theorem witness_FrameOfQueriesReadsAndAbort :
    (isStore (.memRdL 0x2000) = false ∧ consumed (.memRdL 0x2000) = none ∧ isOperandWord (.memRdL 0x2000) = false)
    ∧ ∃ t, exec (.memRdL 0x2000) user = .next t ∧ (!wasAborted t) = true :=
  ⟨by decide, exists_next (p := fun t => !wasAborted t) (by decide)⟩

theorem witness_FrameOfStores :
    (∃ t, exec (memWrOf .long 0xFFFFC 1) user = .next t ∧ (!wasAborted t) = true)
    ∧ locate .long 0xFFFFC user = .index 0xFFFFC
    ∧ (held.run = .aborting ∧ ∃ t, exec (memWrOf .long 0xFFFFC 1) held = .next t ∧ (t.mem == []) = true)
    ∧ locate .byte 0xC00000 through = .neutralised
    ∧ ∃ t, exec (memWrOf .byte 0xC00000 1) through = .next t ∧ (t.mem == []) = true :=
  ⟨exists_next (p := fun t => !wasAborted t) (by decide), by decide,
    ⟨by decide, exists_next (p := fun t => t.mem == []) (by decide)⟩, by decide,
    exists_next (p := fun t => t.mem == []) (by decide)⟩

theorem witness_FrameOfTheDecoder :
    ((consumed .immGetB).isSome = true ∧ ∃ t, exec .immGetB user = .next t ∧ (t.pc == 2) = true)
    ∧ (isOperandWord (.extDnW 0 0 0) = true ∧ ∃ t, exec (.extDnW 0 0 0) user = .next t ∧ (t.pc == 2) = true) :=
  ⟨⟨by decide, exists_next (p := fun t => t.pc == 2) (by decide)⟩,
    ⟨by decide, exists_next (p := fun t => t.pc == 2) (by decide)⟩⟩

end Sys2Proof.Tests
end

section
/-! PROOFS. What can change `RUN` (R19, R115, R116): an abort sets the hold, HOST_RESTART lifts it, nothing else. -/

namespace Sys2Proof.Machine

/-- An instruction leaves `RUN`, or takes an abort from `Running` (R112). -/
theorem exec_run_or_aborts {i : Instr} {s t : State} (h : exec i s = .next t) :
    t.run = s.run ∨ (s.run = .running ∧ ∃ kind dir addr, t = takeAbort kind dir addr s) := by
  cases exec_cases i h with
  | reports r h => simp [h]
  | aborts hr kind dir addr h hx => exact .inr ⟨hr, kind, dir, addr, h⟩
  | advances hr n r h => simp [h]
  | stores hr i n v hb hp h => simp [h]

/-- A move of the host leaves `RUN`, or is a request that takes an abort from `Running`, or is HOST_RESTART. -/
theorem moveCases_run {m : HostMove} {s t : State} (h : MoveCases m s t) :
    t.run = s.run
      ∨ (s.run = .running ∧ (∃ r, m = .request r) ∧ ∃ kind dir addr, t = takeAbort kind dir addr s)
      ∨ (∃ pc0, m = .restart pc0 ∧ t = hostRestart pc0 s) := by
  cases h with
  | reserved r hm hd h => simp [h]
  | executes r i hm hd h =>
    obtain hrun | ⟨hr, habort⟩ := exec_run_or_aborts h
    · exact .inl hrun
    · exact .inr (.inl ⟨hr, ⟨r, hm⟩, habort⟩)
  | restarts pc0 hm h => exact .inr (.inr ⟨pc0, hm, h⟩)
  | writesD i v hm h => simp [h]
  | writesA i v hm h => simp [h]
  | writesSr v hm h => simp [h]
  | writesPc v hm h => simp [h]
  | writesMem a b hm ha h => simp [h]
  | configures c hm hn hw h => simp [h]

/-- A step leaves `RUN`, or takes the abort of a request from `Running`, or makes HOST_RESTART; the move taken has then
left the host's list. -/
theorem step_run {s t : State} (h : step s = .next t) :
    t.run = s.run
      ∨ (s.run = .running
          ∧ ∃ r rest, s.host = .request r :: rest ∧ ∃ kind dir addr, t = takeAbort kind dir addr (s.setHost rest))
      ∨ (∃ pc0 rest, s.host = .restart pc0 :: rest ∧ t = hostRestart pc0 (s.setHost rest)) := by
  obtain ⟨-, rfl⟩ | ⟨m, rest, hhost, hmove⟩ := step_cases h
  · exact .inl rfl
  · obtain hrun | ⟨hr, ⟨r, rfl⟩, habort⟩ | ⟨pc0, rfl, hrestart⟩ := moveCases_run hmove
    · exact .inl hrun
    · exact .inr (.inl ⟨hr, r, rest, hhost, habort⟩)
    · exact .inr (.inr ⟨pc0, rest, hhost, hrestart⟩)

/-- Settles O43: of the three things a step can do to `RUN` (`step_run`), only an abort ends in `Aborting` from
`Running`, and only HOST_RESTART ends in `Running` from `Aborting`. -/
theorem onlyRestartLiftsTheHold : Obligations.OnlyRestartLiftsTheHold := by
  unfold Obligations.OnlyRestartLiftsTheHold
  intro s t h
  obtain hrun | ⟨hr, r, rest, hhost, kind, dir, addr, rfl⟩ | ⟨pc0, rest, hhost, rfl⟩ := step_run h
  · exact ⟨fun hr ha => by simp [hrun, hr] at ha, fun ha hr => by simp [hrun, ha] at hr⟩
  · exact ⟨fun _ _ => ⟨⟨r, rest, hhost⟩, kind, dir, addr, rfl⟩, by simp [hr]⟩
  · exact ⟨by simp, fun _ _ => ⟨pc0, rest, hhost⟩⟩

end Sys2Proof.Machine
end

section
/-! PROOFS. What the Access Guard determines (R70, R73), one equation per branch of its verdict, and what a guard query
does with each verdict (R71, R72). -/

namespace Sys2Proof.Machine

/-- In a running block GUARD_RD is the guard query of direction read (R71). -/
theorem exec_guardRd_of_running {s : State} (h : s.run = .running) (addr : Word) :
    exec (.guardRd addr) s = guardQuery .read addr s :=
  whenRunning_of_running h _

/-- In a running block GUARD_WR is the guard query of direction write (R72). -/
theorem exec_guardWr_of_running {s : State} (h : s.run = .running) (addr : Word) :
    exec (.guardWr addr) s = guardQuery .write addr s :=
  whenRunning_of_running h _

/-- In the I/O region pass-through alone decides (R73): neither `S` nor `MEM_ALOC` is looked at. -/
theorem guardVerdict_of_io {addr : Word} {s : State} (hio : Config.ioBase ≤ mask24 addr) :
    guardVerdict addr s = if s.cfg.ioThrough then .substitute else .fatal .ioRegion (mask24 addr) := by
  unfold guardVerdict
  rw [if_pos hio]

/-- Below the I/O region either failed test, the supervisor's or the allocation's, is fatal. -/
theorem guardVerdict_of_invalid {addr : Word} {s : State} (hio : mask24 addr < Config.ioBase)
    (hbad : supervisor s = false ∨ s.cfg.memAloc ≤ mask24 addr) :
    guardVerdict addr s = .fatal .invalidAddress (mask24 addr) := by
  unfold guardVerdict
  rw [if_neg (BitVec.not_le.mpr hio), if_pos hbad]

/-- Below the I/O region supervisor mode has access to what is allocated. -/
theorem guardVerdict_of_permit {addr : Word} {s : State} (hio : mask24 addr < Config.ioBase)
    (hs : supervisor s = true) (hb : mask24 addr < s.cfg.memAloc) : guardVerdict addr s = .permit := by
  unfold guardVerdict
  rw [if_neg (BitVec.not_le.mpr hio), if_neg (by simp [hs, BitVec.not_le.mpr hb])]

/-- On `permit` a guard query reports `PERMIT` 1 and changes nothing else. -/
theorem guardQuery_of_permit {addr : Word} {s : State} (h : guardVerdict addr s = .permit) (dir : Dir) :
    guardQuery dir addr s = .next (s.setResult (.ok (respPermit true))) := by
  unfold guardQuery
  rw [h]
  rfl

/-- On `substitute` a guard query reports `PERMIT` 0 and changes nothing else. -/
theorem guardQuery_of_substitute {addr : Word} {s : State} (h : guardVerdict addr s = .substitute) (dir : Dir) :
    guardQuery dir addr s = .next (s.setResult (.ok (respPermit false))) := by
  unfold guardQuery
  rw [h]
  rfl

/-- On `fatal` a guard query takes the abort of the verdict's kind and address, in its own direction. -/
theorem guardQuery_of_fatal {addr : Word} {s : State} {kind : AbortKind} {a24 : Word}
    (h : guardVerdict addr s = .fatal kind a24) (dir : Dir) :
    guardQuery dir addr s = .next (takeAbort kind dir a24 s) := by
  unfold guardQuery
  rw [h]
  rfl

/-- Settles O15: the four clauses are the four verdicts of the guard, each given to the query of either direction. -/
theorem guardDecidesByRegionThenModeAndBound : Obligations.GuardDecidesByRegionThenModeAndBound := by
  unfold Obligations.GuardDecidesByRegionThenModeAndBound
  intro s addr hr
  rw [exec_guardRd_of_running hr, exec_guardWr_of_running hr]
  refine ⟨fun hio ht => ?substitute, fun hio ht => ?ioRegion, fun hio hbad => ?invalid, fun hio hs hb => ?permit⟩
  case substitute =>
    have hv : guardVerdict addr s = .substitute := by rw [guardVerdict_of_io hio, if_pos ht]
    exact ⟨guardQuery_of_substitute hv _, guardQuery_of_substitute hv _⟩
  case ioRegion =>
    have hv : guardVerdict addr s = .fatal .ioRegion (mask24 addr) := by
      rw [guardVerdict_of_io hio, if_neg (by simp [ht])]
    exact ⟨guardQuery_of_fatal hv _, guardQuery_of_fatal hv _⟩
  case invalid =>
    have hv := guardVerdict_of_invalid hio hbad
    exact ⟨guardQuery_of_fatal hv _, guardQuery_of_fatal hv _⟩
  case permit =>
    have hv := guardVerdict_of_permit hio hs hb
    exact ⟨guardQuery_of_permit hv _, guardQuery_of_permit hv _⟩

end Sys2Proof.Machine
end

section
/-! PROOFS. What a decoder command does with `PC` (R90 to R95), from the one shape the four of them share, and what every
other command does with it. -/

namespace Sys2Proof.Machine

/-- The inversion of a fetch: the stream bytes lie below `MEM_ALOC` and the rest of the command runs (R90). -/
theorem afterFetch_next {n : Nat} {s t : State} {body : StepOutcome} (h : afterFetch n s body = .next t) :
    s.pc.toNat + n ≤ s.cfg.memAloc.toNat ∧ body = .next t := by
  obtain hle | hlt := le_or_gt (s.pc.toNat + n) s.cfg.memAloc.toNat
  · exact ⟨hle, afterFetch_of_le hle body ▸ h⟩
  · rw [afterFetch_of_lt hlt] at h
    cases h

/-- Below `MEM_ALOC` the advance of `PC` does not wrap. -/
theorem advancePc_pc_toNat {n : Nat} {s : State} (h : s.pc.toNat + n ≤ s.cfg.memAloc.toNat) :
    (advancePc n s).pc.toNat = s.pc.toNat + n := by
  have hlt : s.pc.toNat + n < 2 ^ 32 := Nat.lt_of_le_of_lt h s.cfg.memAloc.isLt
  rw [advancePc_pc, BitVec.toNat_add, BitVec.toNat_ofNat, Nat.add_mod_mod, Nat.mod_eq_of_lt hlt]

/-- The four decoder commands have one shape: under the hold, fetch the bytes consumed, then advance `PC` by them and
answer a datum. -/
theorem exec_of_consumed {i : Instr} {n : Nat} (hc : consumed i = some n) (s : State) :
    ∃ v, exec i s = whenRunning s (afterFetch n s (complete (respData v) (advancePc n s))) := by
  cases i with
  | idxGet => cases hc; exact ⟨_, rfl⟩
  | immGetB => cases hc; exact ⟨immValue .byte s, rfl⟩
  | immGetW => cases hc; exact ⟨immValue .word s, rfl⟩
  | immGetL => cases hc; exact ⟨immValue .long s, rfl⟩
  | _ => cases hc

/-- The inversion of a decoder command: it completes with `PC` past its slot, which lies below `MEM_ALOC`, or the hold
refuses it. -/
theorem exec_next_of_consumed {i : Instr} {n : Nat} {s t : State} (hc : consumed i = some n)
    (h : exec i s = .next t) :
    (s.run = .running ∧ s.pc.toNat + n ≤ s.cfg.memAloc.toNat
        ∧ ∃ v, t = (advancePc n s).setResult (.ok (respData v)))
      ∨ (s.run = .aborting ∧ t = s.setResult (.refused .aborting)) := by
  obtain ⟨v, hexec⟩ := exec_of_consumed hc s
  obtain ⟨hr, hfetch⟩ | hheld := whenRunning_next (hexec ▸ h)
  · obtain ⟨hle, hbody⟩ := afterFetch_next hfetch
    exact .inl ⟨hr, hle, v, by simpa [complete, eq_comm] using hbody⟩
  · exact .inr hheld

/-- A command keeps `PC` when its body does: the hold's refusal leaves it. -/
theorem whenRunning_keeps_pc {s t : State} {body : StepOutcome} (h : whenRunning s body = .next t)
    (hbody : body = .next t → t.pc = s.pc) : t.pc = s.pc := by
  obtain ⟨-, h⟩ | ⟨-, h⟩ := whenRunning_next h
  · exact hbody h
  · simp [h]

theorem guardQuery_keeps_pc {dir : Dir} {addr : Word} {s t : State} (h : guardQuery dir addr s = .next t) :
    t.pc = s.pc := by
  obtain ⟨p, h⟩ | ⟨kind, a24, -, h⟩ := guardQuery_next h <;> simp [h]

theorem memRead_keeps_pc {sz : Size} {addr : Word} {s t : State} (h : memRead sz addr s = .next t) :
    t.pc = s.pc := by
  obtain ⟨v, h⟩ | ⟨kind, a24, -, h⟩ := memRead_next h <;> simp [h]

theorem memWrite_keeps_pc {sz : Size} {addr wdata : Word} {s t : State} (h : memWrite sz addr wdata s = .next t) :
    t.pc = s.pc := by
  obtain ⟨i, -, h⟩ | ⟨-, h⟩ | ⟨kind, a24, -, h⟩ := memWrite_next h <;> simp [h]

theorem raiseAbort_keeps_pc {kind : AbortKind} {dir : Dir} {addr : Word} {s t : State}
    (h : raiseAbort kind dir addr s = .next t) : t.pc = s.pc := by
  cases h
  rfl

/-- No command outside the decoder changes `PC` (R95): neither the guard's, nor the accessor's, nor ABORT. -/
theorem exec_keeps_pc {i : Instr} {s t : State} (hw : isOperandWord i = false) (hc : consumed i = none)
    (h : exec i s = .next t) : t.pc = s.pc := by
  cases i with
  | guardRd addr => exact whenRunning_keeps_pc h guardQuery_keeps_pc
  | guardWr addr => exact whenRunning_keeps_pc h guardQuery_keeps_pc
  | memRdB addr => exact whenRunning_keeps_pc h memRead_keeps_pc
  | memRdW addr => exact whenRunning_keeps_pc h memRead_keeps_pc
  | memRdL addr => exact whenRunning_keeps_pc h memRead_keeps_pc
  | memWrB addr wdata => exact whenRunning_keeps_pc h memWrite_keeps_pc
  | memWrW addr wdata => exact whenRunning_keeps_pc h memWrite_keeps_pc
  | memWrL addr wdata => exact whenRunning_keeps_pc h memWrite_keeps_pc
  | abort addr => exact whenRunning_keeps_pc h raiseAbort_keeps_pc
  | idxGet | immGetB | immGetW | immGetL => cases hc
  | extDnW | extDnL | extAnW | extAnL => cases hw

/-- Settles O31: a decoder command advances `PC` past its slot or is refused (`exec_next_of_consumed`), and every other
command keeps it (`exec_keeps_pc`). -/
theorem pcAdvancesByTheBytesConsumed : Obligations.PcAdvancesByTheBytesConsumed := by
  unfold Obligations.PcAdvancesByTheBytesConsumed
  intro i s t hw h
  refine ⟨fun n hc hr => ?completes, fun hc => exec_keeps_pc hw hc h, fun r hres => ?refused⟩
  case completes =>
    obtain ⟨-, hle, v, rfl⟩ | ⟨ha, -⟩ := exec_next_of_consumed hc h
    · exact advancePc_pc_toNat hle
    · simp [hr] at ha
  case refused =>
    cases hc : consumed i with
    | none => exact exec_keeps_pc hw hc h
    | some n =>
      obtain ⟨-, -, v, rfl⟩ | ⟨-, rfl⟩ := exec_next_of_consumed hc h
      · simp at hres
      · rfl

end Sys2Proof.Machine
end

section
/-! PROOFS. What every abort leaves in `STATUS` and on the trace (R112, R114, R123). -/

namespace Sys2Proof.Machine

/-- Only an abort takes a running block to `Aborting` (R19). -/
theorem exec_takes_abort {i : Instr} {s t : State} (h : exec i s = .next t) (hr : s.run = .running)
    (ha : t.run = .aborting) : ∃ kind dir addr, t = takeAbort kind dir addr s := by
  obtain hrun | ⟨-, habort⟩ := exec_run_or_aborts h
  · simp [hrun, hr] at ha
  · exact habort

/-- Every transfer of an abort carries the status code 2 (R114). -/
theorem abortEvents_transfer_code {kind : AbortKind} {dir : Dir} {addr : Word} {s : State} {code : Nat}
    (h : .transfer code ∈ abortEvents kind dir addr s) : code = Config.abortStatus := by
  cases kind <;> cases hd : s.cfg.diag <;> simpa [abortEvents, hd] using h

/-- Among the events of an abort the transfer of code 2 stands once, and no other transfer stands. -/
theorem abortEvents_count_transfer (kind : AbortKind) (dir : Dir) (addr : Word) (s : State) (code : Nat) :
    (abortEvents kind dir addr s).count (.transfer code) = if code = Config.abortStatus then 1 else 0 := by
  split
  next hcode => exact hcode ▸ abortEvents_transfers kind dir addr s
  next hcode => exact List.count_eq_zero.mpr fun hmem => hcode (abortEvents_transfer_code hmem)

/-- Settles O49: the one way into `Aborting` is `takeAbort`, whose events hold one transfer, of code 2, and one release of
the files. -/
theorem everyAbortHasStatusTwoAndReleasesOnce : Obligations.EveryAbortHasStatusTwoAndReleasesOnce := by
  unfold Obligations.EveryAbortHasStatusTwoAndReleasesOnce
  intro i s t hr h ha
  obtain ⟨kind, dir, addr, rfl⟩ := exec_takes_abort h hr ha
  exact ⟨rfl, abortEvents kind dir addr s, rfl, abortEvents_count_transfer kind dir addr s,
    abortEvents_releases kind dir addr s⟩

end Sys2Proof.Machine
end

section
/-! PROOFS. The two encodings (R50 to R57): decoding undoes encoding, every meaning is encoded by the bits it was decoded
from, and the reserved command bytes. -/

namespace Sys2Proof

/-- Decoding undoes encoding, for commands by R51 and R52, for operand words by R56. -/
theorem decode_encode (i : Instr) : decode (encode i) = .ok i := by
  cases i with
  | guardRd | guardWr | idxGet | abort => simp [encode, decode, decodeCommand, withoutSize]
  | memRdB | memRdW | memRdL | memWrB | memWrW | memWrL => simp [encode, decode, decodeCommand, bySize]
  | immGetB | immGetW | immGetL => simp [encode, decode, decodeCommand, bySize]
  | extDnW | extDnL | extAnW | extAnL => simp [encode, decode, decodeExt]

/-- Settles O2: `decode_encode`, which every instruction meets, well formed as all of them are. -/
theorem decodeOfEncodeIsTheInstruction : Obligations.DecodeOfEncodeIsTheInstruction :=
  fun i _ => decode_encode i

/-- An extension word is made of its fields (R56). -/
theorem encodeExt_fields (w : Half) : encodeExt (extDa w) (extReg w) (extWl w) (extIgn w) (extDisp w) = w := by
  have hreg : BitVec.ofNat 3 (extReg w).val = w.extractLsb' 12 3 :=
    (BitVec.ofNat_toNat _ _).trans (BitVec.setWidth_eq _)
  apply BitVec.eq_of_getLsbD_eq
  intro i hi
  simp only [encodeExt, hreg, extDa, extWl, extIgn, extDisp, BitVec.getLsbD_append, BitVec.getLsbD_extractLsb']
  interval_cases i <;> simp

/-- The variant that `DA` and `WL` select is encoded with that `DA` and that `WL`. -/
theorem encode_decodeExt (w : Half) : encode (decodeExt w) = .extension w := by
  have hfields : encode (decodeExt w)
      = .extension (encodeExt (extDa w) (extReg w) (extWl w) (extIgn w) (extDisp w)) := by
    unfold decodeExt
    cases extDa w <;> cases extWl w <;> rfl
  rw [hfields, encodeExt_fields]

/-- The instruction is a command with this command byte. -/
def HasCommandByte (i : Instr) (cmd : BitVec 8) : Prop := ∃ r, encode i = .command r ∧ r.cmd = cmd

theorem withoutSize_hasCommandByte {op : BitVec 4} {sz : BitVec 2} {i j : Instr}
    (hj : HasCommandByte j (cmdByte op 0)) (h : withoutSize sz j = .ok i) : HasCommandByte i (cmdByte op sz) := by
  unfold withoutSize at h
  split_ifs at h with hsz
  cases h
  exact hsz ▸ hj

theorem bySize_hasCommandByte {op : BitVec 4} {sz : BitVec 2} {i byte word long : Instr}
    (hbyte : HasCommandByte byte (cmdByte op 0)) (hword : HasCommandByte word (cmdByte op 1))
    (hlong : HasCommandByte long (cmdByte op 2)) (h : bySize sz byte word long = .ok i) :
    HasCommandByte i (cmdByte op sz) := by
  unfold bySize at h
  split_ifs at h with h0 h1 h2
  · cases h; exact h0 ▸ hbyte
  · cases h; exact h1 ▸ hword
  · cases h; exact h2 ▸ hlong

/-- With `ZERO` 00 a command byte is made of its other two fields (R51). -/
theorem cmdByte_fields : ∀ cmd : BitVec 8, zeroField cmd = 0 → cmdByte (opField cmd) (szField cmd) = cmd := by
  decide

/-- A request decodes to an instruction of its own command byte, by `OP`, then by `SZ` (R52). -/
theorem decodeCommand_hasCommandByte {r : Request} {i : Instr} (h : decodeCommand r = .ok i) :
    HasCommandByte i r.cmd := by
  unfold decodeCommand at h
  split_ifs at h with hz h0 h1 h2 h3 h4 h5 h6 <;> rw [← cmdByte_fields r.cmd (not_not.mp hz)]
  · exact h0 ▸ withoutSize_hasCommandByte ⟨_, rfl, rfl⟩ h
  · exact h1 ▸ withoutSize_hasCommandByte ⟨_, rfl, rfl⟩ h
  · exact h2 ▸ bySize_hasCommandByte ⟨_, rfl, rfl⟩ ⟨_, rfl, rfl⟩ ⟨_, rfl, rfl⟩ h
  · exact h3 ▸ bySize_hasCommandByte ⟨_, rfl, rfl⟩ ⟨_, rfl, rfl⟩ ⟨_, rfl, rfl⟩ h
  · exact h4 ▸ withoutSize_hasCommandByte ⟨_, rfl, rfl⟩ h
  · exact h5 ▸ bySize_hasCommandByte ⟨_, rfl, rfl⟩ ⟨_, rfl, rfl⟩ ⟨_, rfl, rfl⟩ h
  · exact h6 ▸ withoutSize_hasCommandByte ⟨_, rfl, rfl⟩ h

/-- Settles O3: `encode_decodeExt` for the words; for the requests `decodeCommand_hasCommandByte`, and that the encoding
found decodes back is `decode_encode`. -/
theorem decodedWordsEncodeBack : Obligations.DecodedWordsEncodeBack := by
  refine ⟨encode_decodeExt, fun r i h => ?_⟩
  obtain ⟨r', hencode, hcmd⟩ := decodeCommand_hasCommandByte h
  have hback : decode (.command r') = .ok i := hencode ▸ decode_encode i
  exact ⟨r', hencode, hcmd, hback⟩

/-- Settles O1: the words' fields are those of R52 and R56. -/
theorem commandWordsDecode : Obligations.CommandWordsDecode := by
  intro a v
  simp only [← and_assoc]
  refine ⟨⟨?commands, rfl⟩, rfl⟩
  case commands => simp [decodeCommand, opField, zeroField, szField, withoutSize, bySize]

/-! The reserved command bytes (R54). -/

theorem withoutSize_reserved {sz : BitVec 2} {i : Instr} :
    withoutSize sz i = .error .reservedCommand ↔ sz ≠ 0 := by
  simp [withoutSize]

theorem bySize_reserved {sz : BitVec 2} {byte word long : Instr} :
    bySize sz byte word long = .error .reservedCommand ↔ sz = 3 := by
  have hlast : ∀ sz : BitVec 2, (sz ≠ 0 ∧ sz ≠ 1 ∧ sz ≠ 2) ↔ sz = 3 := by decide
  rw [← hlast, bySize]
  split_ifs <;> simp_all

/-- R54's list, by the three fields of the command byte. -/
def ReservedFields (op : BitVec 4) (zero sz : BitVec 2) : Prop :=
  7 ≤ op.toNat ∨ zero ≠ 0 ∨ sz = 3 ∨ (sz ≠ 0 ∧ op.toNat ∈ [0, 1, 4, 6])

/-- An `OP` without size reserves every `SZ` but 00. -/
theorem reservedFields_withoutSize {op : BitVec 4} {sz : BitVec 2} (hop : op.toNat ∈ [0, 1, 4, 6]) :
    ReservedFields op 0 sz ↔ sz ≠ 0 := by
  revert op sz
  unfold ReservedFields
  decide

/-- An `OP` with size reserves `SZ` 11 only. -/
theorem reservedFields_bySize {op : BitVec 4} {sz : BitVec 2} (hop : op.toNat ∈ [2, 3, 5]) :
    ReservedFields op 0 sz ↔ sz = 3 := by
  revert op sz
  unfold ReservedFields
  decide

/-- The decoder refuses the command bytes of R54's list and no other. -/
theorem decodeCommand_reserved_iff (r : Request) :
    decodeCommand r = .error .reservedCommand ↔ ReservedFields (opField r.cmd) (zeroField r.cmd) (szField r.cmd) := by
  unfold decodeCommand
  split_ifs with hz h0 h1 h2 h3 h4 h5 h6
  · exact iff_of_true rfl (.inr (.inl hz))
  all_goals rw [not_not.mp hz]
  · rw [h0, withoutSize_reserved, reservedFields_withoutSize (by decide)]
  · rw [h1, withoutSize_reserved, reservedFields_withoutSize (by decide)]
  · rw [h2, bySize_reserved, reservedFields_bySize (by decide)]
  · rw [h3, bySize_reserved, reservedFields_bySize (by decide)]
  · rw [h4, withoutSize_reserved, reservedFields_withoutSize (by decide)]
  · rw [h5, bySize_reserved, reservedFields_bySize (by decide)]
  · rw [h6, withoutSize_reserved, reservedFields_withoutSize (by decide)]
  · exact iff_of_true rfl (.inl (by bv_omega))

/-- The bytes of R54's list are those that R52 does not define. -/
theorem commandDefined_eq_false_iff : ∀ cmd : BitVec 8,
    commandDefined cmd = false ↔ ReservedFields (opField cmd) (zeroField cmd) (szField cmd) := by
  unfold ReservedFields
  decide

/-- 13 of the 256 command bytes are defined. -/
theorem reserved_command_count :
    ((List.range 256).filter (fun n => !commandDefined (BitVec.ofNat 8 n))).length = 243 := by
  decide +kernel

namespace Machine

/-- A step takes the host's next move from the list and makes it. -/
theorem step_of_host {s : State} {m : HostMove} {rest : List HostMove} (h : s.host = m :: rest) :
    step s = takeMove m (s.setHost rest) := by
  unfold step takeNextMove
  rw [h]

/-- A step on a request that decodes runs the instruction. -/
theorem step_of_decoded {s : State} {r : Request} {rest : List HostMove} {i : Instr}
    (h : s.host = .request r :: rest) (hd : decodeCommand r = .ok i) : step s = exec i (s.setHost rest) := by
  rw [step_of_host h, takeMove, acceptRequest, hd]

/-- A step on a request that the decoder refuses reports the refusal and does nothing else. -/
theorem step_of_reserved {s : State} {r : Request} {rest : List HostMove} {e : RefusedReason}
    (h : s.host = .request r :: rest) (hd : decodeCommand r = .error e) :
    step s = .next ((s.setHost rest).setResult (.refused e)) := by
  rw [step_of_host h, takeMove, acceptRequest, hd]
  rfl

end Machine

open Machine

/-- Settles O4: R54's list (`decodeCommand_reserved_iff`) is the complement of R52's (`commandDefined_eq_false_iff`). -/
theorem reservedCommandBytesAreRefused : Obligations.ReservedCommandBytesAreRefused := by
  have hdefined (r : Request) : decodeCommand r = .error .reservedCommand ↔ commandDefined r.cmd = false :=
    (decodeCommand_reserved_iff r).trans (commandDefined_eq_false_iff r.cmd).symm
  exact ⟨decodeCommand_reserved_iff, hdefined, reserved_command_count,
    fun s r rest hhost hr => step_of_reserved hhost ((hdefined r).mpr hr)⟩

/-- Settles O5: `step_of_decoded`. -/
theorem stepRunsTheDecodedCommand : Obligations.StepRunsTheDecodedCommand :=
  fun _ _ _ _ => step_of_decoded

end Sys2Proof
end

section
/-! PROOFS. What one step does to the whole state: the invariant (R5, R10, R19 to R22), the configuration (R24, R139), the
trace (R22), and the host's own moves (R24, R116, R131). -/

namespace Sys2Proof.Machine

/-! The invariant, one lemma per update that touches what it speaks of. -/

theorem machineInv_iff (s : State) :
    machineInv s = true ↔ memInv s = true ∧ s.cfg.wf = true ∧ abortInv s = true ∧ traceInv s = true := by
  simp [machineInv, and_assoc]

theorem memInv_iff (s : State) :
    memInv s = true ↔ Memory.wf s.mem = true ∧ memBelow s.mem s.cfg.memAloc.toNat = true := by
  simp [memInv]

/-- New bytes keep the invariant when they are in the canonical form and below `MEM_ALOC` (R10). -/
theorem setMem_keeps_machineInv {s : State} {m : Memory} (hs : machineInv s = true) (hwf : Memory.wf m = true)
    (hbelow : memBelow m s.cfg.memAloc.toNat = true) : machineInv (s.setMem m) = true := by
  obtain ⟨-, hcfg, habort, htrace⟩ := (machineInv_iff s).mp hs
  exact (machineInv_iff _).mpr ⟨(memInv_iff _).mpr ⟨hwf, hbelow⟩, hcfg, habort, htrace⟩

/-- The record of an abort is legal: ABORT's own has direction 0, the guard's a masked address (R21, R110). -/
theorem faultLegal_takeAbort {kind : AbortKind} {dir : Dir} {addr : Word}
    (hx : (kind = .explicit ∧ dir = .read) ∨ GuardAbort kind addr) (s : State) :
    faultLegal (takeAbort kind dir addr s).fault = true := by
  obtain ⟨rfl, rfl⟩ | ⟨rfl | rfl, hmasked⟩ := hx
  · rfl
  · simp [faultLegal, ← hmasked]
  · simp [faultLegal, ← hmasked]

/-- An abort keeps the invariant: it adds one release and one transfer, which comes last (R112). -/
theorem takeAbort_keeps_machineInv {s : State} {kind : AbortKind} {dir : Dir} {addr : Word}
    (hs : machineInv s = true) (hx : (kind = .explicit ∧ dir = .read) ∨ GuardAbort kind addr) :
    machineInv (takeAbort kind dir addr s) = true := by
  obtain ⟨hmem, hcfg, -, htrace⟩ := (machineInv_iff s).mp hs
  have habort : abortInv (takeAbort kind dir addr s) = true := by
    simp only [abortInv, faultLegal_takeAbort hx s, takeAbort_out, abortEvents_last]
    simp
  have htrace' : traceInv (takeAbort kind dir addr s) = true := by
    simpa [traceInv, releases, abortEvents_releases, abortEvents_transfers] using htrace
  exact (machineInv_iff _).mpr ⟨hmem, hcfg, habort, htrace'⟩

/-- HOST_RESTART keeps the invariant: a fault on record says nothing of `RUN`, and without one `RUN` is `Running`. -/
theorem hostRestart_keeps_machineInv {s : State} (pc0 : Word) (hs : machineInv s = true) :
    machineInv (hostRestart pc0 s) = true := by
  obtain ⟨hmem, hcfg, habort, htrace⟩ := (machineInv_iff s).mp hs
  have habort' : abortInv (hostRestart pc0 s) = true := by
    simp only [abortInv, Bool.or_eq_true, Bool.and_eq_true, beq_iff_eq] at habort ⊢
    obtain hfault | ⟨⟨hstatus, -⟩, hout⟩ := habort
    · exact .inl hfault
    · exact .inr ⟨⟨hstatus, rfl⟩, hout⟩
  exact (machineInv_iff _).mpr ⟨hmem, hcfg, habort', htrace⟩

/-- A configuration that is well formed keeps the invariant with nothing listed in `MEM` (R131). -/
theorem configure_keeps_machineInv {s : State} {c : Config} (hs : machineInv s = true) (hw : c.wf = true) :
    machineInv ((s.setCfg c).setMem []) = true := by
  obtain ⟨-, -, habort, htrace⟩ := (machineInv_iff s).mp hs
  exact (machineInv_iff _).mpr ⟨rfl, hw, habort, htrace⟩

theorem exec_keeps_machineInv {i : Instr} {s t : State} (hs : machineInv s = true) (h : exec i s = .next t) :
    machineInv t = true := by
  obtain ⟨hwf, hbelow⟩ := (memInv_iff s).mp ((machineInv_iff s).mp hs).1
  cases exec_cases i h with
  | reports r h => exact h ▸ hs
  | aborts hr kind dir addr h hx => exact h ▸ takeAbort_keeps_machineInv hs hx
  | advances hr n r h => exact h ▸ hs
  | stores hr i n v hb hp h =>
    have hkept := setMem_keeps_machineInv hs (writeBE_wf s.mem i n v hwf) (writeBE_below s.mem i n _ v hb hbelow)
    exact h ▸ hkept

theorem moveCases_keep_machineInv {m : HostMove} {s t : State} (hs : machineInv s = true) (h : MoveCases m s t) :
    machineInv t = true := by
  obtain ⟨hwf, hbelow⟩ := (memInv_iff s).mp ((machineInv_iff s).mp hs).1
  cases h with
  | reserved r hm hd h => exact h ▸ hs
  | executes r i hm hd h => exact exec_keeps_machineInv hs h
  | restarts pc0 hm h => exact h ▸ hostRestart_keeps_machineInv pc0 hs
  | writesD i v hm h => exact h ▸ hs
  | writesA i v hm h => exact h ▸ hs
  | writesSr v hm h => exact h ▸ hs
  | writesPc v hm h => exact h ▸ hs
  | writesMem a b hm ha h =>
    exact h ▸ setMem_keeps_machineInv hs (writeByte_wf s.mem a b hwf) (writeByte_below s.mem a _ b ha hbelow)
  | configures c hm hn hw h => exact h ▸ configure_keeps_machineInv hs hw

/-- Settles O13: a step does nothing or makes one move, and every move keeps the invariant. -/
theorem everyStepKeepsTheInvariant : Obligations.EveryStepKeepsTheInvariant := by
  intro s t hs h
  obtain ⟨-, rfl⟩ | ⟨m, rest, -, hmove⟩ := step_cases h
  · exact hs
  · exact moveCases_keep_machineInv (s := s.setHost rest) hs hmove

/-- Settles O12: reset's memory is empty, its configuration T0, and nothing has aborted. -/
theorem resetSatisfiesTheInvariant : Obligations.ResetSatisfiesTheInvariant :=
  (machineInv_iff _).mpr ⟨reset_memInv, by decide, by decide, by decide⟩

/-- Settles O11: the four fields as `State.reset` gives them (R130). -/
theorem resetLeavesTheControllerRunning : Obligations.ResetLeavesTheControllerRunning :=
  ⟨rfl, rfl, rfl, rfl⟩

/-! What an instruction never writes (R24), and what only an abort writes. -/

/-- An instruction leaves what the host alone writes, and reports a result. -/
theorem exec_keeps_hosts_fields {i : Instr} {s t : State} (h : exec i s = .next t) :
    t.dreg = s.dreg ∧ t.areg = s.areg ∧ t.sr = s.sr ∧ t.cfg = s.cfg ∧ t.host = s.host ∧ t.result.isSome = true := by
  cases exec_cases i h with
  | reports r h => simp [h]
  | aborts hr kind dir addr h hx => simp [h]
  | advances hr n r h => simp [h]
  | stores hr i n v hb hp h => simp [h]

/-- An instruction leaves the abort controller's fields, or takes an abort from `Running` (R19 to R22). -/
theorem exec_controller_or_aborts {i : Instr} {s t : State} (h : exec i s = .next t) :
    (t.run = s.run ∧ t.status = s.status ∧ t.fault = s.fault ∧ t.out = s.out)
      ∨ (s.run = .running ∧ ∃ kind dir addr, t = takeAbort kind dir addr s) := by
  cases exec_cases i h with
  | reports r h => simp [h]
  | aborts hr kind dir addr h hx => exact .inr ⟨hr, kind, dir, addr, h⟩
  | advances hr n r h => simp [h]
  | stores hr i n v hb hp h => simp [h]

/-- Settles O45: `exec_keeps_hosts_fields`; of `exec_controller_or_aborts` the abort reports itself. -/
theorem commandsNeverWriteTheHostsRegisters : Obligations.CommandsNeverWriteTheHostsRegisters := by
  intro i s t h
  obtain ⟨hd, ha, hsr, hcfg, hhost, -⟩ := exec_keeps_hosts_fields h
  refine ⟨hd, ha, hsr, hcfg, hhost, fun hna => ?_⟩
  obtain hkept | ⟨-, kind, dir, addr, rfl⟩ := exec_controller_or_aborts h
  · exact hkept
  · cases hna

/-- A move leaves the configuration, and a result once given, or is a `configure` before the first request. -/
theorem moveCases_cfg {m : HostMove} {s t : State} (h : MoveCases m s t) :
    (t.cfg = s.cfg ∧ (s.result.isSome = true → t.result.isSome = true))
      ∨ (s.result = none ∧ ∃ c, m = .configure c ∧ t.cfg = c ∧ c.wf = true) := by
  cases h with
  | reserved r hm hd h => simp [h]
  | executes r i hm hd h =>
    obtain ⟨-, -, -, hcfg, -, hres⟩ := exec_keeps_hosts_fields h
    exact .inl ⟨hcfg, fun _ => hres⟩
  | restarts pc0 hm h => simp [h]
  | writesD i v hm h => simp [h]
  | writesA i v hm h => simp [h]
  | writesSr v hm h => simp [h]
  | writesPc v hm h => simp [h]
  | writesMem a b hm ha h => simp [h]
  | configures c hm hn hw h => exact .inr ⟨hn, c, hm, by simp [h], hw⟩

/-- Settles O9: of the moves only `configure` writes the configuration, and only while no request has been answered. -/
theorem configurationIsStableDuringARun : Obligations.ConfigurationIsStableDuringARun := by
  intro s t h
  obtain ⟨-, rfl⟩ | ⟨m, rest, hhost, hmove⟩ := step_cases h
  · exact ⟨fun hs => ⟨rfl, hs⟩, .inl rfl⟩
  · obtain ⟨hcfg, hres⟩ | ⟨hnone, c, rfl, hcfg, hw⟩ := moveCases_cfg hmove
    · exact ⟨fun hs => ⟨hcfg, hres hs⟩, .inl hcfg⟩
    · rw [setHost_result] at hnone
      exact ⟨fun hs => by simp [hnone] at hs, .inr ⟨c, rest, hhost, hcfg, hw⟩⟩

/-- A move leaves the trace, or takes an abort from `Running`. -/
theorem moveCases_out {m : HostMove} {s t : State} (h : MoveCases m s t) :
    t.out = s.out ∨ (s.run = .running ∧ ∃ kind dir addr, t = takeAbort kind dir addr s) := by
  cases h with
  | reserved r hm hd h => simp [h]
  | executes r i hm hd h =>
    obtain ⟨-, -, -, hout⟩ | habort := exec_controller_or_aborts h
    · exact .inl hout
    · exact .inr habort
  | restarts pc0 hm h => simp [h]
  | writesD i v hm h => simp [h]
  | writesA i v hm h => simp [h]
  | writesSr v hm h => simp [h]
  | writesPc v hm h => simp [h]
  | writesMem a b hm ha h => simp [h]
  | configures c hm hn hw h => simp [h]

/-- Settles O44: a step leaves the trace or appends the events of one abort, counted in `abortEvents_releases` and
`abortEvents_transfers`. -/
theorem traceGrowsOnlyByAborts : Obligations.TraceGrowsOnlyByAborts := by
  intro s t h
  obtain ⟨-, rfl⟩ | ⟨m, rest, -, hmove⟩ := step_cases h
  · exact ⟨[], by simp, .inl rfl⟩
  · obtain hout | ⟨hr, kind, dir, addr, rfl⟩ := moveCases_out hmove
    · exact ⟨[], by simpa using hout, .inl rfl⟩
    · refine ⟨abortEvents kind dir addr (s.setHost rest), rfl, .inr ⟨hr, rfl, rfl, ?releases, ?transfers, ?last⟩⟩
      case releases => exact abortEvents_releases kind dir addr _
      case transfers => exact abortEvents_transfers kind dir addr _
      case last => exact abortEvents_last [] kind dir addr _

/-! The host's own moves. -/

/-- Settles O7: each write is its update of the state; the byte of `MEM` is `readByte_writeByte`. -/
theorem hostMovesWriteOnlyTheirField : Obligations.HostMovesWriteOnlyTheirField := by
  intro s rest
  refine ⟨fun i v => step_of_host, fun i v => step_of_host, fun v => step_of_host, fun v => step_of_host,
    fun a b hhost ha => ?inside, fun a b hhost ha => ?outside, fun hhost => ?noMove⟩
  case inside =>
    refine ⟨(s.setHost rest).setMem (writeByte s.mem a b), ?_, rfl, fun c => readByte_writeByte s.mem a c b⟩
    rw [step_of_host hhost]
    exact if_pos ha
  case outside =>
    rw [step_of_host hhost]
    exact if_neg (Nat.not_lt.mpr ha)
  case noMove =>
    unfold step takeNextMove
    rw [hhost]

/-- Settles O8: the move is `hostRestart`. -/
theorem hostRestartSetsRunAndPcOnly : Obligations.HostRestartSetsRunAndPcOnly :=
  fun _ _ _ => step_of_host

/-- Settles O10: the three branches of `hostConfigure`. -/
theorem configureActsBeforeTheFirstCommandOnly : Obligations.ConfigureActsBeforeTheFirstCommandOnly := by
  intro s c rest hhost
  rw [step_of_host hhost]
  refine ⟨fun hn hw => ?_, fun hn hw => ?_, fun r hres => ?_⟩
  · simp [takeMove, hostConfigure, hn, hw, State.setCfg, State.setMem, State.setHost]
  · simp [takeMove, hostConfigure, hn, hw]
  · simp [takeMove, hostConfigure, hres]

/-! The canonical form of memory (log 6). -/

theorem wfFrom_cons (lo k : Nat) (v : Byte) (rest : Memory) :
    wfFrom lo ((k, v) :: rest) = true ↔ lo ≤ k ∧ v ≠ fillByte ∧ wfFrom (k + 1) rest = true := by
  simp [wfFrom, and_assoc]

theorem readByte_head (k : Nat) (v : Byte) (rest : Memory) : readByte ((k, v) :: rest) k = v :=
  if_pos rfl

theorem readByte_tail {k a : Nat} (h : k ≠ a) (v : Byte) (rest : Memory) :
    readByte ((k, v) :: rest) a = readByte rest a :=
  if_neg h

/-- Below the first address of the canonical form every byte reads as the fill value. -/
theorem readByte_of_lt {m : Memory} {lo a : Nat} (w : wfFrom lo m = true) (h : a < lo) : readByte m a = fillByte := by
  induction m generalizing lo with
  | nil => rfl
  | cons x rest ih =>
    obtain ⟨k, v⟩ := x
    obtain ⟨hk, -, hrest⟩ := (wfFrom_cons lo k v rest).mp w
    rw [readByte_tail (by omega)]
    exact ih hrest (by omega)

/-- Of two memories that read alike the first cell of one does not stand before the first of the other: it holds no
fill value, which the other reads there. -/
theorem head_le_of_reads_alike {k k' lo : Nat} {v v' : Byte} {rest rest' : Memory}
    (w : wfFrom lo ((k, v) :: rest) = true) (w' : wfFrom lo ((k', v') :: rest') = true)
    (h : ∀ a, readByte ((k, v) :: rest) a = readByte ((k', v') :: rest') a) : k' ≤ k := by
  obtain ⟨-, hv, -⟩ := (wfFrom_cons lo k v rest).mp w
  obtain ⟨-, hv', hrest'⟩ := (wfFrom_cons lo k' v' rest').mp w'
  by_contra hlt
  have w'' : wfFrom k' ((k', v') :: rest') = true := (wfFrom_cons _ _ _ _).mpr ⟨le_rfl, hv', hrest'⟩
  exact hv ((readByte_head k v rest).symm.trans ((h k).trans (readByte_of_lt w'' (by omega))))

/-- A memory with a listed cell does not read like the empty one. -/
theorem not_reads_alike_nil {k lo : Nat} {v : Byte} {rest : Memory} (w : wfFrom lo ((k, v) :: rest) = true) :
    ¬ ∀ a, readByte ((k, v) :: rest) a = readByte [] a :=
  fun h => ((wfFrom_cons lo k v rest).mp w).2.1 ((readByte_head k v rest).symm.trans (h k))

/-- In the canonical form the list is determined by what it reads. -/
theorem wfFrom_ext {m m' : Memory} {lo : Nat} (w : wfFrom lo m = true) (w' : wfFrom lo m' = true)
    (h : ∀ a, readByte m a = readByte m' a) : m = m' := by
  induction m generalizing m' lo with
  | nil =>
    cases m' with
    | nil => rfl
    | cons y rest' => exact absurd (fun a => (h a).symm) (not_reads_alike_nil w')
  | cons x rest ih =>
    cases m' with
    | nil => exact absurd h (not_reads_alike_nil w)
    | cons y rest' =>
      obtain ⟨k, v⟩ := x
      obtain ⟨k', v'⟩ := y
      obtain rfl : k = k' := le_antisymm (head_le_of_reads_alike w' w fun a => (h a).symm) (head_le_of_reads_alike w w' h)
      obtain rfl : v = v' := (readByte_head k v rest).symm.trans ((h k).trans (readByte_head k v' rest'))
      obtain ⟨-, -, hrest⟩ := (wfFrom_cons lo k v rest).mp w
      obtain ⟨-, -, hrest'⟩ := (wfFrom_cons lo k v rest').mp w'
      have htails (a : Nat) : readByte rest a = readByte rest' a := by
        by_cases ha : a ≤ k
        · rw [readByte_of_lt hrest (by omega), readByte_of_lt hrest' (by omega)]
        · have hne : k ≠ a := by omega
          rw [← readByte_tail hne v rest, ← readByte_tail hne v rest', h a]
      rw [ih hrest hrest' htails]

/-- Settles O14: `wfFrom_ext` from address 0. -/
theorem canonicalMemoriesThatReadAlikeAreEqual : Obligations.CanonicalMemoriesThatReadAlikeAreEqual :=
  fun _ _ => wfFrom_ext

end Sys2Proof.Machine
end

section
/-! PROOFS. What the Memory Accessor determines about an address (R80, R89), one equation per answer of `locate`, and what a
read and a write do with each (R81 to R86). -/

namespace Sys2Proof.Machine

/-! The accessor's commands, by size. -/

theorem exec_memRdOf (sz : Size) (addr : Word) (s : State) :
    exec (memRdOf sz addr) s = whenRunning s (memRead sz addr s) := by
  cases sz <;> rfl

theorem exec_memWrOf (sz : Size) (addr wdata : Word) (s : State) :
    exec (memWrOf sz addr wdata) s = whenRunning s (memWrite sz addr wdata s) := by
  cases sz <;> rfl

/-! The answers of `locate`. -/

theorem performed_iff (addr : Word) (s : State) :
    performed addr s = true ↔ mask24 addr < s.cfg.memAloc
      ∧ (s.cfg.envTop ≤ mask24 addr ∨ (mask24 addr < Config.ioBase ∧ supervisor s = true)) := by
  simp [performed]

theorem fits_iff (sz : Size) (addr : Word) (s : State) :
    fits sz addr s = true ↔ (mask24 addr).toNat + sizeBytes sz ≤ s.cfg.memAloc.toNat := by
  simp [fits]

/-- A performed access of one byte fits. -/
theorem fits_byte_of_performed {addr : Word} {s : State} (hp : performed addr s = true) :
    fits .byte addr s = true :=
  (fits_iff _ _ _).mpr (BitVec.lt_def.mp ((performed_iff addr s).mp hp).1)

theorem locate_of_fits {sz : Size} {addr : Word} {s : State} (hp : performed addr s = true)
    (hf : fits sz addr s = true) : locate sz addr s = .index (mask24 addr).toNat := by
  obtain ⟨hb, hmode⟩ := (performed_iff addr s).mp hp
  rw [locate_performed hb hmode, spanned, if_pos ((fits_iff _ _ _).mp hf)]

theorem locate_of_not_fits {sz : Size} {addr : Word} {s : State} (hp : performed addr s = true)
    (hf : s.cfg.memAloc.toNat < (mask24 addr).toNat + sizeBytes sz) : locate sz addr s = .spanFault := by
  obtain ⟨hb, hmode⟩ := (performed_iff addr s).mp hp
  rw [locate_performed hb hmode, spanned, if_neg (by omega)]

/-- The guard is asked about the masked address, which it masks again. -/
@[simp] theorem guardVerdict_mask24 (addr : Word) (s : State) : guardVerdict (mask24 addr) s = guardVerdict addr s := by
  simp [guardVerdict]

/-- On the slow path a fatal verdict of the guard is the accessor's. -/
theorem locate_of_guard_fatal {sz : Size} {addr a24 : Word} {s : State} {kind : AbortKind}
    (hslow : fastPath (mask24 addr) s = false) (hg : guardVerdict addr s = .fatal kind a24) :
    locate sz addr s = .fatal kind a24 := by
  simp [locate, hslow, hg]

/-- On the slow path the guard's substitute neutralises the access. -/
theorem locate_of_guard_substitute {sz : Size} {addr : Word} {s : State}
    (hslow : fastPath (mask24 addr) s = false) (hg : guardVerdict addr s = .substitute) :
    locate sz addr s = .neutralised := by
  simp [locate, hslow, hg]

/-- At and above `MEM_ALOC` there is no fast path. -/
theorem fastPath_of_beyond {a24 : Word} {s : State} (h : s.cfg.memAloc ≤ a24) : fastPath a24 s = false := by
  simp [fastPath, BitVec.not_lt.mpr h]

/-- Below `ENV_TOP` there is no fast path. -/
theorem fastPath_of_low {a24 : Word} {s : State} (h : a24 < s.cfg.envTop) : fastPath a24 s = false := by
  simp [fastPath, BitVec.not_le.mpr h]

theorem config_wf_iff (c : Config) : c.wf = true ↔ c.envTop ≤ c.memAloc ∧ c.memAloc ≤ Config.ioBase := by
  simp [Config.wf]

/-- In a well-formed configuration the I/O region is beyond `MEM_ALOC`, so the guard decides alone (R73). -/
theorem locate_of_io {sz : Size} {addr : Word} {s : State} (hw : s.cfg.wf = true)
    (hio : Config.ioBase ≤ mask24 addr) :
    locate sz addr s = if s.cfg.ioThrough then .neutralised else .fatal .ioRegion (mask24 addr) := by
  have hslow := fastPath_of_beyond (BitVec.le_trans ((config_wf_iff _).mp hw).2 hio)
  have hg := guardVerdict_of_io (s := s) hio
  split_ifs at hg ⊢
  · exact locate_of_guard_substitute hslow hg
  · exact locate_of_guard_fatal hslow hg

/-- Below the I/O region an access that is not performed is invalid: in LOW in user mode, or beyond `MEM_ALOC`. -/
theorem locate_of_invalid {sz : Size} {addr : Word} {s : State} (hio : mask24 addr < Config.ioBase)
    (hbad : (mask24 addr < s.cfg.envTop ∧ supervisor s = false) ∨ s.cfg.memAloc ≤ mask24 addr) :
    locate sz addr s = .fatal .invalidAddress (mask24 addr) := by
  obtain ⟨hlow, hs⟩ | hbeyond := hbad
  · exact locate_of_guard_fatal (fastPath_of_low hlow) (guardVerdict_of_invalid hio (.inl hs))
  · exact locate_of_guard_fatal (fastPath_of_beyond hbeyond) (guardVerdict_of_invalid hio (.inr hbeyond))

/-- The inversion of the guard's permit: below the I/O region and `MEM_ALOC`, in supervisor mode. -/
theorem guardVerdict_permit {addr : Word} {s : State} (h : guardVerdict addr s = .permit) :
    mask24 addr < Config.ioBase ∧ mask24 addr < s.cfg.memAloc ∧ supervisor s = true := by
  unfold guardVerdict at h
  split_ifs at h with hio ht hbad
  obtain ⟨hs, hb⟩ := not_or.mp hbad
  exact ⟨BitVec.not_le.mp hio, BitVec.not_le.mp hb, Bool.not_eq_false _ ▸ hs⟩

/-- The span rule is reached by performed accesses only. -/
theorem performed_of_spanFault {sz : Size} {addr : Word} {s : State} (h : locate sz addr s = .spanFault) :
    performed addr s = true := by
  rw [performed_iff]
  unfold locate at h
  split at h
  next hfast =>
    obtain ⟨htop, hb⟩ : s.cfg.envTop ≤ mask24 addr ∧ mask24 addr < s.cfg.memAloc := by simpa [fastPath] using hfast
    exact ⟨hb, .inl htop⟩
  next =>
    split at h
    next => cases h
    next => cases h
    next hg =>
      obtain ⟨hio, hb, hs⟩ := guardVerdict_permit (guardVerdict_mask24 addr s ▸ hg)
      exact ⟨hb, .inr ⟨hio, hs⟩⟩

/-- The span fault is that of a performed access that does not fit (R89). -/
theorem locate_spanFault_iff (sz : Size) (addr : Word) (s : State) :
    locate sz addr s = .spanFault
      ↔ performed addr s = true ∧ s.cfg.memAloc.toNat < (mask24 addr).toNat + sizeBytes sz := by
  refine ⟨fun h => ⟨performed_of_spanFault h, ?_⟩, fun ⟨hp, hf⟩ => locate_of_not_fits hp hf⟩
  by_contra hle
  have hindex := locate_of_fits (performed_of_spanFault h) ((fits_iff sz addr s).mpr (by omega))
  rw [h] at hindex
  cases hindex

/-! What a read and a write do with each answer. -/

section
variable {sz : Size} {addr : Word} {s : State}

theorem memRead_of_index {i : Nat} (h : locate sz addr s = .index i) :
    memRead sz addr s = .next (s.setResult (.ok (respData (readBE s.mem i (sizeBytes sz))))) := by
  simp [memRead, h, complete]

theorem memRead_of_neutralised (h : locate sz addr s = .neutralised) :
    memRead sz addr s = .next (s.setResult (.ok (respData 0))) := by
  simp [memRead, h, complete]

theorem memRead_of_fatal {kind : AbortKind} {a24 : Word} (h : locate sz addr s = .fatal kind a24) :
    memRead sz addr s = .next (takeAbort kind .read a24 s) := by
  simp [memRead, h, raiseAbort]

theorem memRead_spanFault_iff : memRead sz addr s = .fault .spanOutOfBuffer ↔ locate sz addr s = .spanFault := by
  cases h : locate sz addr s <;> simp [memRead, h, complete, raiseAbort]

theorem memWrite_of_index {i : Nat} (h : locate sz addr s = .index i) (wdata : Word) :
    memWrite sz addr wdata s
      = .next ((s.setMem (writeBE s.mem i (sizeBytes sz) wdata)).setResult (.ok respNone)) := by
  simp [memWrite, h, complete]

theorem memWrite_of_neutralised (h : locate sz addr s = .neutralised) (wdata : Word) :
    memWrite sz addr wdata s = .next (s.setResult (.ok respNone)) := by
  simp [memWrite, h, complete]

theorem memWrite_of_fatal {kind : AbortKind} {a24 : Word} (h : locate sz addr s = .fatal kind a24) (wdata : Word) :
    memWrite sz addr wdata s = .next (takeAbort kind .write a24 s) := by
  simp [memWrite, h, raiseAbort]

theorem memWrite_spanFault_iff {wdata : Word} :
    memWrite sz addr wdata s = .fault .spanOutOfBuffer ↔ locate sz addr s = .spanFault := by
  cases h : locate sz addr s <;> simp [memWrite, h, complete, raiseAbort]

/-- A performed read that fits answers the bytes at the masked address (R81 to R83). -/
theorem exec_memRdOf_of_fits (hr : s.run = .running) (hp : performed addr s = true) (hf : fits sz addr s = true) :
    exec (memRdOf sz addr) s
      = .next (s.setResult (.ok (respData (readBE s.mem (mask24 addr).toNat (sizeBytes sz))))) := by
  rw [exec_memRdOf, whenRunning_of_running hr, memRead_of_index (locate_of_fits hp hf)]

/-- A performed write that fits stores its bytes at the masked address (R84 to R86). -/
theorem exec_memWrOf_of_fits (hr : s.run = .running) (hp : performed addr s = true) (hf : fits sz addr s = true)
    (wdata : Word) :
    exec (memWrOf sz addr wdata) s
      = .next ((s.setMem (writeBE s.mem (mask24 addr).toNat (sizeBytes sz) wdata)).setResult (.ok respNone)) := by
  rw [exec_memWrOf, whenRunning_of_running hr, memWrite_of_index (locate_of_fits hp hf)]

/-- A fatal access aborts in the direction of the command, read or write. -/
theorem exec_access_of_fatal {kind : AbortKind} {a24 : Word} (hr : s.run = .running)
    (h : locate sz addr s = .fatal kind a24) (wdata : Word) :
    exec (memRdOf sz addr) s = .next (takeAbort kind .read a24 s)
      ∧ exec (memWrOf sz addr wdata) s = .next (takeAbort kind .write a24 s) := by
  rw [exec_memRdOf, exec_memWrOf, whenRunning_of_running hr, whenRunning_of_running hr, memRead_of_fatal h,
    memWrite_of_fatal h]
  exact ⟨rfl, rfl⟩

/-- A neutralised access answers 0, or stores nothing. -/
theorem exec_access_of_neutralised (hr : s.run = .running) (h : locate sz addr s = .neutralised) (wdata : Word) :
    exec (memRdOf sz addr) s = .next (s.setResult (.ok (respData 0)))
      ∧ exec (memWrOf sz addr wdata) s = .next (s.setResult (.ok respNone)) := by
  rw [exec_memRdOf, exec_memWrOf, whenRunning_of_running hr, whenRunning_of_running hr, memRead_of_neutralised h,
    memWrite_of_neutralised h]
  exact ⟨rfl, rfl⟩

/-- Both commands fault exactly where the access is performed and does not fit (R89). -/
theorem exec_access_spanFault_iff (hr : s.run = .running) (wdata : Word) :
    (exec (memRdOf sz addr) s = .fault .spanOutOfBuffer ↔
        performed addr s = true ∧ s.cfg.memAloc.toNat < (mask24 addr).toNat + sizeBytes sz)
      ∧ (exec (memWrOf sz addr wdata) s = .fault .spanOutOfBuffer ↔
        performed addr s = true ∧ s.cfg.memAloc.toNat < (mask24 addr).toNat + sizeBytes sz) := by
  rw [exec_memRdOf, exec_memWrOf, whenRunning_of_running hr, whenRunning_of_running hr, memRead_spanFault_iff,
    memWrite_spanFault_iff, locate_spanFault_iff]
  exact ⟨Iff.rfl, Iff.rfl⟩

end

/-- Settles O20: with pass-through the I/O region is neutralised. -/
theorem passThroughNeutralisesTheIoRegion : Obligations.PassThroughNeutralisesTheIoRegion := by
  intro s sz addr wdata hr hw ht hio
  have hlocate : locate sz addr s = .neutralised := (locate_of_io hw hio).trans (if_pos ht)
  exact exec_access_of_neutralised hr hlocate wdata

/-- Settles O21: `exec_access_spanFault_iff`; a performed access starts below `MEM_ALOC`, which bounds where it may start
and not fit. -/
theorem spanPastTheBufferFaults : Obligations.SpanPastTheBufferFaults := by
  intro s sz addr wdata hr
  obtain ⟨hread, hwrite⟩ := exec_access_spanFault_iff (sz := sz) (addr := addr) hr wdata
  refine ⟨hread, hwrite, fun h => ?_⟩
  obtain ⟨hp, hspan⟩ := hread.mp h
  have hb := BitVec.lt_def.mp ((performed_iff addr s).mp hp).1
  cases sz with
  | byte => simp only [sizeBytes] at hspan; omega
  | word => simp only [sizeBytes] at hspan; exact .inl ⟨rfl, by omega⟩
  | long => simp only [sizeBytes] at hspan; exact .inr ⟨rfl, by omega, hb⟩

/-! The regions of R32 as bounds on the masked address. -/

/-- The bounds of a region (R32). -/
def RegionBounds (c : Config) (a24 : Word) (r : Region) : Prop :=
  match r with
  | .low => a24 < Config.ioBase ∧ a24 < c.memAloc ∧ a24 < c.envTop
  | .ram => a24 < Config.ioBase ∧ a24 < c.memAloc ∧ c.envTop ≤ a24
  | .hole => a24 < Config.ioBase ∧ c.memAloc ≤ a24
  | .io => Config.ioBase ≤ a24

theorem regionBounds_of_eq {c : Config} {a24 : Word} {r : Region} (h : regionOf c a24 = r) : RegionBounds c a24 r := by
  subst h
  unfold regionOf
  split_ifs <;> simp_all [RegionBounds, BitVec.not_le]

theorem performed_of_ram {addr : Word} {s : State} (h : regionOf s.cfg (mask24 addr) = .ram) :
    performed addr s = true := by
  obtain ⟨-, hb, htop⟩ := regionBounds_of_eq h
  exact (performed_iff addr s).mpr ⟨hb, .inl htop⟩

theorem performed_of_low {addr : Word} {s : State} (h : regionOf s.cfg (mask24 addr) = .low)
    (hs : supervisor s = true) : performed addr s = true := by
  obtain ⟨hio, hb, -⟩ := regionBounds_of_eq h
  exact (performed_iff addr s).mpr ⟨hb, .inr ⟨hio, hs⟩⟩

/-- Settles O17: LOW in user mode and HOLE are invalid, IO is the guard's alone; what is left, RAM and LOW in supervisor
mode, is performed, under the span rule. -/
theorem accessVerdictByRegion : Obligations.AccessVerdictByRegion := by
  intro s sz addr wdata hr hw
  split
  next hregion hs =>
    obtain ⟨hio, -, hlow⟩ := regionBounds_of_eq hregion
    exact exec_access_of_fatal hr (locate_of_invalid hio (.inl ⟨hlow, hs⟩)) wdata
  next hregion =>
    obtain ⟨hio, hbeyond⟩ := regionBounds_of_eq hregion
    exact exec_access_of_fatal hr (locate_of_invalid hio (.inr hbeyond)) wdata
  next hregion ht =>
    have hio : Config.ioBase ≤ mask24 addr := regionBounds_of_eq hregion
    exact exec_access_of_fatal hr ((locate_of_io hw hio).trans (if_neg (by simp [ht]))) wdata
  next hregion ht =>
    have hio : Config.ioBase ≤ mask24 addr := regionBounds_of_eq hregion
    exact exec_access_of_neutralised hr ((locate_of_io hw hio).trans (if_pos ht)) wdata
  next hhole hlow hfatal hthrough =>
    have hp : performed addr s = true := by
      cases hregion : regionOf s.cfg (mask24 addr) with
      | low => exact performed_of_low hregion (by simpa using hlow hregion)
      | ram => exact performed_of_ram hregion
      | hole => exact (hhole hregion).elim
      | io =>
        cases ht : s.cfg.ioThrough with
        | false => exact (hfatal hregion ht).elim
        | true => exact (hthrough hregion ht).elim
    split_ifs with hf
    · have hfits := (fits_iff sz addr s).mpr hf
      exact ⟨exec_memRdOf_of_fits hr hp hfits, exec_memWrOf_of_fits hr hp hfits wdata⟩
    · obtain ⟨hread, hwrite⟩ := exec_access_spanFault_iff (sz := sz) (addr := addr) hr wdata
      have hspan := And.intro hp (Nat.not_le.mp hf)
      exact ⟨hread.mpr hspan, hwrite.mpr hspan⟩

end Sys2Proof.Machine
end

section
/-! PROOFS. The data of guarded accesses: byte order (R36 to R38), reads and writes (R81 to R86), the round trip (R88),
aliases (R31), and what user mode can reach (R120). -/

namespace Sys2Proof.Machine

/-! Big-endian bytes. -/

/-- What a byte reads as after a store depends on what it read as before, and on no other byte. -/
theorem readByte_writeBE_congr {m m' : Memory} {a : Nat} (h : readByte m a = readByte m' a) (i n : Nat) (v : Word) :
    readByte (writeBE m i n v) a = readByte (writeBE m' i n v) a := by
  induction n generalizing m m' i with
  | zero => exact h
  | succ n ih => exact ih (by rw [readByte_writeByte, readByte_writeByte, h]) (i + 1)

/-- The most significant byte of a store stands at its first address, the rest behind it (R36). -/
theorem readByte_writeBE_succ (m : Memory) (i n : Nat) (v : Word) (a : Nat) :
    readByte (writeBE m i (n + 1) v) a
      = if a = i then v.extractLsb' (8 * n) 8 else readByte (writeBE m (i + 1) n v) a := by
  split_ifs with ha
  · subst ha
    exact readByte_writeBE_inside m a (n + 1) v 0 (Nat.succ_pos n)
  · have hbyte : readByte (writeByte m i (v.extractLsb' (8 * n) 8)) a = readByte m a := by
      rw [readByte_writeByte, if_neg ha]
    exact readByte_writeBE_congr hbyte (i + 1) n v

/-- The bytes of a store read back as the low bytes of its value. -/
theorem readBE_writeBE (m : Memory) (i : Nat) (sz : Size) (v : Word) :
    readBE (writeBE m i (sizeBytes sz) v) i (sizeBytes sz) = lowBytes sz v := by
  cases sz with
  | byte => simp [sizeBytes, readBE_one, readByte_writeBE_succ, lowBytes]
  | word => simp [sizeBytes, readBE_two, readByte_writeBE_succ, lowBytes, extract_bytes_two]
  | long => simp [sizeBytes, readBE_four, readByte_writeBE_succ, lowBytes, extract_bytes_four]

/-- What is read is zero-extended: it has no bits above the access's own. -/
theorem lowBytes_readBE (m : Memory) (i : Nat) (sz : Size) :
    lowBytes sz (readBE m i (sizeBytes sz)) = readBE m i (sizeBytes sz) := by
  cases sz with
  | byte => simp [sizeBytes, readBE_one, lowBytes, BitVec.extractLsb'_setWidth_of_le]
  | word => simp [sizeBytes, readBE_two, lowBytes, BitVec.extractLsb'_setWidth_of_le]
  | long => rfl

/-- Byte `k` of what is read, from the most significant on, is the byte at `i + k` (R36). -/
theorem extract_readBE (m : Memory) (i : Nat) (sz : Size) (k : Nat) (hk : k < sizeBytes sz) :
    (readBE m i (sizeBytes sz)).extractLsb' (8 * (sizeBytes sz - 1 - k)) 8 = readByte m (i + k) := by
  cases sz with
  | byte =>
    simp only [sizeBytes, readBE_one] at hk ⊢
    interval_cases k
    simp [BitVec.extractLsb'_setWidth_of_le]
  | word =>
    simp only [sizeBytes, readBE_two] at hk ⊢
    interval_cases k
    all_goals
      simp (disch := omega) only [BitVec.extractLsb'_setWidth_of_le, BitVec.extractLsb'_append_eq_of_le,
        BitVec.extractLsb'_append_eq_of_add_le]
      exact BitVec.extractLsb'_eq_self
  | long =>
    simp only [sizeBytes, readBE_four] at hk ⊢
    interval_cases k
    all_goals
      simp (disch := omega) only [BitVec.extractLsb'_append_eq_of_le, BitVec.extractLsb'_append_eq_of_add_le]
      exact BitVec.extractLsb'_eq_self

/-! Reads and writes that are performed. -/

/-- Settles O18: the bytes of `exec_memRdOf_of_fits`, for each size. -/
theorem memReadReturnsTheBytes : Obligations.MemReadReturnsTheBytes := by
  intro s addr i hr hp hi
  subst hi
  refine ⟨?byte, fun hf => ?word, fun hf => ?long⟩
  case byte =>
    rw [← readBE_one]
    exact exec_memRdOf_of_fits (sz := .byte) hr hp (fits_byte_of_performed hp)
  case word =>
    rw [← readBE_two]
    exact exec_memRdOf_of_fits (sz := .word) hr hp ((fits_iff .word addr s).mpr hf)
  case long =>
    rw [← readBE_four]
    exact exec_memRdOf_of_fits (sz := .long) hr hp ((fits_iff .long addr s).mpr hf)

/-- Settles O19: the store of `exec_memWrOf_of_fits`, read byte by byte. -/
theorem memWriteStoresTheBytes : Obligations.MemWriteStoresTheBytes := by
  intro s addr wdata i hr hp hi
  subst hi
  refine ⟨⟨_, exec_memWrOf_of_fits hr hp (fits_byte_of_performed hp) wdata, rfl, fun a => ?byte⟩,
    fun hf => ⟨_, exec_memWrOf_of_fits hr hp ((fits_iff .word addr s).mpr hf) wdata, rfl, fun a => ?word⟩,
    fun hf => ⟨_, exec_memWrOf_of_fits hr hp ((fits_iff .long addr s).mpr hf) wdata, rfl, fun a => ?long⟩⟩
  all_goals simp only [setResult_mem, setMem_mem, sizeBytes, readByte_writeBE_succ]
  all_goals rfl

/-- Settles O22: `readBE_writeBE` for an access that is performed; a neutralised one stores nothing and reads 0. -/
theorem readAfterWriteReturnsTheValue : Obligations.ReadAfterWriteReturnsTheValue := by
  intro s sz addr v hr
  refine ⟨fun hp hf => ?performed, fun hw ht hio => ?neutralised⟩
  case performed =>
    refine ⟨_, exec_memWrOf_of_fits hr hp hf v, ?_, fun a ha => readByte_writeBE_outside _ _ _ _ a ha⟩
    rw [← readBE_writeBE s.mem (mask24 addr).toNat sz v]
    exact exec_memRdOf_of_fits hr hp hf
  case neutralised =>
    have hlocate : locate sz addr s = .neutralised := (locate_of_io hw hio).trans (if_pos ht)
    exact ⟨_, (exec_access_of_neutralised hr hlocate v).2, rfl, (exec_access_of_neutralised hr hlocate v).1⟩

/-- Settles O23: `readByte_writeBE_inside` for writes, `extract_readBE` for reads. -/
theorem dataIsBigEndian : Obligations.DataIsBigEndian := by
  intro s sz addr v hr hp hf
  exact ⟨⟨_, exec_memWrOf_of_fits hr hp hf v, fun k hk => readByte_writeBE_inside _ _ _ _ k hk⟩,
    ⟨_, exec_memRdOf_of_fits hr hp hf, (lowBytes_readBE _ _ _).symm, fun k hk => extract_readBE _ _ _ k hk⟩⟩

/-! Reads inside a larger access. -/

/-- Masking keeps an offset that stays below 2^24. -/
theorem mask24_add_toNat {addr : Word} {k : Nat} (h : (mask24 addr).toNat + k < 16777216) :
    (mask24 (addr + BitVec.ofNat 32 k)).toNat = (mask24 addr).toNat + k := by
  rw [mask24_toNat] at h
  rw [mask24_toNat, mask24_toNat, BitVec.toNat_add, BitVec.toNat_ofNat]
  omega

/-- In a well-formed configuration a smaller read inside an access that is performed and fits is performed and fits,
and answers the bytes there. -/
theorem exec_memRdOf_inside {sz sz' : Size} {addr : Word} {s : State} {k : Nat} (hr : s.run = .running)
    (hw : s.cfg.wf = true) (hp : performed addr s = true) (hf : fits sz addr s = true)
    (hk : k + sizeBytes sz' ≤ sizeBytes sz) :
    exec (memRdOf sz' (addr + BitVec.ofNat 32 k)) s
      = .next (s.setResult (.ok (respData (readBE s.mem ((mask24 addr).toNat + k) (sizeBytes sz'))))) := by
  have hpos : 0 < sizeBytes sz' := by cases sz' <;> decide
  have hio : Config.ioBase.toNat = 12582912 := rfl
  obtain ⟨-, hbase⟩ := (config_wf_iff _).mp hw
  obtain ⟨-, hmode⟩ := (performed_iff addr s).mp hp
  rw [fits_iff] at hf
  simp only [BitVec.le_def, BitVec.lt_def] at hbase hmode
  have haddr : (mask24 (addr + BitVec.ofNat 32 k)).toNat = (mask24 addr).toNat + k := mask24_add_toNat (by omega)
  have hp' : performed (addr + BitVec.ofNat 32 k) s = true := by
    simp only [performed_iff, BitVec.le_def, BitVec.lt_def, haddr]
    exact ⟨by omega, hmode.imp (fun _ => by omega) (fun ⟨_, hs⟩ => ⟨by omega, hs⟩)⟩
  have hf' : fits sz' (addr + BitVec.ofNat 32 k) s = true := by
    rw [fits_iff, haddr]
    omega
  rw [exec_memRdOf_of_fits hr hp' hf', haddr]

/-- A byte inside a long that has been stored. -/
theorem readBE_byte_inside_long (m : Memory) (i : Nat) (v : Word) {k : Nat} (hk : k < 4) :
    readBE (writeBE m i 4 v) (i + k) 1 = (v.extractLsb' (24 - 8 * k) 8).setWidth 32 := by
  rw [readBE_one, readByte_writeBE_inside m i 4 v k hk, show 8 * (4 - 1 - k) = 24 - 8 * k by omega]

/-- A word inside a long that has been stored: two of its bytes, which are adjacent. -/
theorem readBE_word_inside_long (m : Memory) (i : Nat) (v : Word) {k : Nat} (hk : k + 2 ≤ 4) :
    readBE (writeBE m i 4 v) (i + k) 2 = (v.extractLsb' (16 - 8 * k) 16).setWidth 32 := by
  rw [readBE_two, Nat.add_assoc, readByte_writeBE_inside m i 4 v k (by omega),
    readByte_writeBE_inside m i 4 v (k + 1) (by omega),
    BitVec.extractLsb'_append_extractLsb'_eq_extractLsb' (by omega), show 8 * (4 - 1 - (k + 1)) = 16 - 8 * k by omega]

/-- Settles O24: each read lies inside the long write (`exec_memRdOf_inside`) and gets bytes of `v`. -/
theorem mixedWidthsSeeTheSameBytes : Obligations.MixedWidthsSeeTheSameBytes := by
  intro s addr v hr hw hp hf
  refine ⟨_, exec_memWrOf_of_fits hr hp hf v, fun k hk => ?byte, ?high, ?middle, ?low⟩
  case byte =>
    rw [← readBE_byte_inside_long s.mem (mask24 addr).toNat v hk]
    exact exec_memRdOf_inside (sz := .long) (sz' := .byte) hr hw hp hf hk
  case high =>
    have hword : fits .word addr s = true :=
      (fits_iff _ _ _).mpr (Nat.le_trans (Nat.add_le_add_left (by decide) _) ((fits_iff _ _ _).mp hf))
    rw [← readBE_word_inside_long s.mem (mask24 addr).toNat v (k := 0) (by omega)]
    exact exec_memRdOf_of_fits (sz := .word) hr hp hword
  case middle =>
    rw [← readBE_word_inside_long s.mem (mask24 addr).toNat v (k := 1) (by omega)]
    exact exec_memRdOf_inside (sz := .long) (sz' := .word) (k := 1) hr hw hp hf (by decide)
  case low =>
    rw [← readBE_word_inside_long s.mem (mask24 addr).toNat v (k := 2) (by omega)]
    exact exec_memRdOf_inside (sz := .long) (sz' := .word) (k := 2) hr hw hp hf (by decide)

/-! Aliases (R31). -/

theorem mask24_add_mul (addr : Word) (k : Nat) : mask24 (addr + BitVec.ofNat 32 (k * 0x1000000)) = mask24 addr := by
  apply BitVec.eq_of_toNat_eq
  rw [mask24_toNat, mask24_toNat, BitVec.toNat_add, BitVec.toNat_ofNat]
  omega

/-- The guard looks at the masked address only. -/
theorem guardQuery_congr {a b : Word} (h : mask24 a = mask24 b) (dir : Dir) (s : State) :
    guardQuery dir a s = guardQuery dir b s := by
  simp only [guardQuery, guardVerdict, h]

/-- The accessor looks at the masked address only. -/
theorem locate_congr {a b : Word} (h : mask24 a = mask24 b) (sz : Size) (s : State) : locate sz a s = locate sz b s := by
  simp only [locate, h]

/-! Isolation (R120). -/

/-- Settles O26: the one way to change memory is a store, which in user mode starts at or above `ENV_TOP`. -/
theorem userModeNeverWritesLow : Obligations.UserModeNeverWritesLow := by
  intro i s t hs h a ha
  cases exec_cases i h with
  | reports r h => rw [h]; rfl
  | aborts hr kind dir addr h hx => rw [h]; rfl
  | advances hr n r h => rw [h]; rfl
  | stores hr i n v hb hp h =>
    have hs' : supervisor s = false := hs
    have htop : s.cfg.envTop.toNat ≤ i := hp.resolve_right (by simp [hs'])
    rw [h]
    exact readByte_writeBE_outside s.mem i n v a (.inl (by omega))

/-- A command whose body keeps its next state, but for the memory, when the memory is replaced, does so too. -/
theorem whenRunning_setMem {s t : State} {m' : Memory} {body body' : StepOutcome}
    (hbody : body = .next t → body' = .next (t.setMem m')) (h : whenRunning s body = .next t) :
    whenRunning (s.setMem m') body' = .next (t.setMem m') := by
  obtain ⟨hr, h⟩ | ⟨ha, rfl⟩ := whenRunning_next h
  · exact (whenRunning_of_running (s := s.setMem m') hr body').trans (hbody h)
  · exact whenRunning_of_aborting (s := s.setMem m') ha body'

/-- A guard query does not read memory. -/
theorem guardQuery_setMem {dir : Dir} {addr : Word} {s t : State} (m' : Memory)
    (h : guardQuery dir addr s = .next t) : guardQuery dir addr (s.setMem m') = .next (t.setMem m') := by
  cases hv : guardVerdict addr s with
  | permit =>
    cases (guardQuery_of_permit hv dir).symm.trans h
    exact guardQuery_of_permit (s := s.setMem m') hv dir
  | substitute =>
    cases (guardQuery_of_substitute hv dir).symm.trans h
    exact guardQuery_of_substitute (s := s.setMem m') hv dir
  | fatal kind a24 =>
    cases (guardQuery_of_fatal hv dir).symm.trans h
    exact guardQuery_of_fatal (s := s.setMem m') hv dir

/-- In user mode a guarded read reads at or above `ENV_TOP` only. -/
theorem memRead_setMem {sz : Size} {addr : Word} {s t : State} {m' : Memory} (hs : supervisor s = false)
    (hagree : agreeFrom s.cfg.envTop.toNat s.mem m') (h : memRead sz addr s = .next t) :
    memRead sz addr (s.setMem m') = .next (t.setMem m') := by
  cases hl : locate sz addr s with
  | index i =>
    obtain ⟨-, -, hmode⟩ := locate_index hl
    have htop : s.cfg.envTop.toNat ≤ i := hmode.resolve_right (by simp [hs])
    have hbytes : readBE s.mem i (sizeBytes sz) = readBE m' i (sizeBytes sz) :=
      readBE_congr _ _ _ _ fun k _ => hagree (i + k) (by omega)
    cases (memRead_of_index hl).symm.trans h
    rw [hbytes]
    exact memRead_of_index (s := s.setMem m') hl
  | neutralised =>
    cases (memRead_of_neutralised hl).symm.trans h
    exact memRead_of_neutralised (s := s.setMem m') hl
  | fatal kind a24 =>
    cases (memRead_of_fatal hl).symm.trans h
    exact memRead_of_fatal (s := s.setMem m') hl
  | spanFault =>
    rw [memRead_spanFault_iff.mpr hl] at h
    cases h

/-- Settles O27: queries do not read memory, and what a read gets in user mode lies outside LOW. -/
theorem userModeNeverReadsLowThroughTheAccessor : Obligations.UserModeNeverReadsLowThroughTheAccessor := by
  intro s t sz addr m' hs hagree
  refine ⟨fun h => ?read, whenRunning_setMem (guardQuery_setMem m'), whenRunning_setMem (guardQuery_setMem m')⟩
  case read =>
    rw [exec_memRdOf] at h ⊢
    exact whenRunning_setMem (memRead_setMem hs hagree) h

end Sys2Proof.Machine
end

section
/-! PROOFS. The Operand Decoder (R90 to R97): the value each decoder command answers, which depends on its slot and the
registers only, and the operand word that IDX_GET runs (R56, R57). -/

namespace Sys2Proof.Machine

/-- What a decoder command answers (R91 to R94); no other instruction is meant. -/
def decoderValue (i : Instr) (s : State) : Word :=
  match i with
  | .idxGet => indexSum (extDa (streamExt s)) (extReg (streamExt s)) (extWl (streamExt s)) (extDisp (streamExt s)) s
  | .immGetB => immValue .byte s
  | .immGetW => immValue .word s
  | .immGetL => immValue .long s
  | _ => 0

theorem exec_decoder {i : Instr} {n : Nat} (hc : consumed i = some n) (s : State) :
    exec i s = whenRunning s (afterFetch n s (complete (respData (decoderValue i s)) (advancePc n s))) := by
  cases i with
  | idxGet | immGetB | immGetW | immGetL => cases hc; rfl
  | _ => cases hc

/-- With its slot below `MEM_ALOC` a decoder command completes, `PC` past the slot. -/
theorem exec_decoder_of_le {i : Instr} {n : Nat} {s : State} (hc : consumed i = some n) (hr : s.run = .running)
    (hle : s.pc.toNat + n ≤ s.cfg.memAloc.toNat) :
    exec i s = .next ((advancePc n s).setResult (.ok (respData (decoderValue i s)))) := by
  rw [exec_decoder hc, whenRunning_of_running hr, afterFetch_of_le hle, complete]

/-- The same, with the value under another name. -/
theorem exec_decoder_of_value {i : Instr} {n : Nat} {s : State} {d : Word} (hc : consumed i = some n)
    (hr : s.run = .running) (hle : s.pc.toNat + n ≤ s.cfg.memAloc.toNat) (hd : decoderValue i s = d) :
    exec i s = .next ((advancePc n s).setResult (.ok (respData d))) :=
  hd ▸ exec_decoder_of_le hc hr hle

/-- With a byte of its slot at or above `MEM_ALOC` a decoder command faults. -/
theorem exec_decoder_of_lt {i : Instr} {n : Nat} {s : State} (hc : consumed i = some n) (hr : s.run = .running)
    (hlt : s.cfg.memAloc.toNat < s.pc.toNat + n) : exec i s = .fault .fetchOutOfBuffer := by
  rw [exec_decoder hc, whenRunning_of_running hr, afterFetch_of_lt hlt]

theorem consumed_immGetOf (sz : Size) : consumed (immGetOf sz) = some (slotBytes sz) := by
  cases sz <;> rfl

/-- Settles O28: `exec_decoder_of_le` for IDX_GET, whose value is `indexSum` of the fields of the word at `PC`. -/
theorem idxGetAddsIndexAndDisplacement : Obligations.IdxGetAddsIndexAndDisplacement := by
  intro s ext x hr hle hext hx
  subst hext hx
  exact exec_decoder_of_le (i := .idxGet) rfl hr hle

/-- Settles O29: `exec_decoder_of_le` for the three widths. -/
theorem immGetReturnsTheSlot : Obligations.ImmGetReturnsTheSlot := by
  intro s p hr hp
  subst hp
  refine ⟨fun hle => ⟨?byte, ?word⟩, fun hle => ?long⟩
  case byte => exact exec_decoder_of_le (i := .immGetB) rfl hr hle
  case word => exact exec_decoder_of_value (i := .immGetW) rfl hr hle (readBE_two _ _)
  case long => exact exec_decoder_of_value (i := .immGetL) rfl hr hle (readBE_four _ _)

/-- Settles O30: the two cases of the fetch test. -/
theorem fetchPastTheBufferFaults : Obligations.FetchPastTheBufferFaults := by
  intro s i n hr hc
  refine ⟨⟨fun h => ?_, exec_decoder_of_lt hc hr⟩, fun hle => ⟨_, exec_decoder_of_le hc hr hle⟩⟩
  by_contra hle
  rw [exec_decoder_of_le hc hr (Nat.not_lt.mp hle)] at h
  cases h

/-- Settles O25: aliases have one masked address; `PC` is compared whole with `MEM_ALOC`, which is below 2^24. -/
theorem maskedAddressesAreAliases : Obligations.MaskedAddressesAreAliases := by
  intro s sz addr v k
  have hmask := mask24_add_mul addr k
  refine ⟨?guardRd, ?guardWr, ?memRd, ?memWr, fun hr hw hpc => ?decoder⟩
  case guardRd => exact congrArg (whenRunning s) (guardQuery_congr hmask .read s)
  case guardWr => exact congrArg (whenRunning s) (guardQuery_congr hmask .write s)
  case memRd => simp only [exec_memRdOf, memRead, locate_congr hmask]
  case memWr => simp only [exec_memWrOf, memWrite, locate_congr hmask]
  case decoder =>
    have hbase := BitVec.le_def.mp ((config_wf_iff _).mp hw).2
    have hio : Config.ioBase.toNat = 12582912 := rfl
    exact ⟨exec_decoder_of_lt (i := .idxGet) rfl hr (by omega), exec_decoder_of_lt (consumed_immGetOf sz) hr (by omega)⟩

/-! The operand word. -/

/-- An operand word answers its index value plus the displacement and leaves `PC` past it (R57, R91). -/
theorem exec_decodeExt_of_running {s : State} (hr : s.run = .running) (w : Half) :
    exec (decodeExt w) s = .next ((advancePc 2 s).setResult (.ok (respData
      (indexSum (extDa w) (extReg w) (extWl w) (extDisp w) s)))) := by
  unfold decodeExt
  cases extDa w <;> cases extWl w <;> exact whenRunning_of_running hr _

/-- IDX_GET is the operand word at `PC`. -/
theorem exec_idxGet_eq_decodeExt {s : State} (hr : s.run = .running)
    (hle : s.pc.toNat + 2 ≤ s.cfg.memAloc.toNat) : exec .idxGet s = exec (decodeExt (streamExt s)) s := by
  rw [exec_decodeExt_of_running hr]
  exact exec_decoder_of_le (i := .idxGet) rfl hr hle

/-- The command byte 0x40 is IDX_GET (R52). -/
theorem decodeCommand_of_idxGet {r : Request} (h : r.cmd = 0x40) : decodeCommand r = .ok .idxGet := by
  unfold decodeCommand
  rw [h]
  rfl

/-- Settles O6: the request decodes to IDX_GET, and IDX_GET is the operand word at `PC`. -/
theorem idxGetRunsItsExtensionWord : Obligations.IdxGetRunsItsExtensionWord := by
  intro s r rest hhost hcmd hr hle
  rw [step_of_decoded hhost (decodeCommand_of_idxGet hcmd)]
  exact exec_idxGet_eq_decodeExt (s := s.setHost rest) hr hle

/-- Settles O35: the four operand words are the four index values. -/
theorem extensionWordsGiveIndexPlusDisplacement : Obligations.ExtensionWordsGiveIndexPlusDisplacement :=
  fun s reg _ disp hr =>
    ⟨whenRunning_of_running hr (indexed false reg false disp s), whenRunning_of_running hr (indexed false reg true disp s),
      whenRunning_of_running hr (indexed true reg false disp s), whenRunning_of_running hr (indexed true reg true disp s)⟩

/-- The bits of an extension word that select its variant are `DA` and `WL` (R56). -/
theorem and_variantMask (w : Half) :
    w &&& 0x8800 = BitVec.ofBool (extDa w) ++ (0 : BitVec 3) ++ BitVec.ofBool (extWl w) ++ (0 : BitVec 11) := by
  conv_lhs => rw [← encodeExt_fields w]
  exact Laws.TableRow.encodeExt_and_mask _ _ _ _ _

/-- Words that agree outside bits 10:8 agree at every bit there. -/
theorem getLsbD_of_and_eq {w w' : Half} (h : w &&& 0xF8FF = w' &&& 0xF8FF) {j : Nat}
    (hj : (0xF8FF : Half).getLsbD j = true) : w.getLsbD j = w'.getLsbD j := by
  have hbit := congrArg (fun x => x.getLsbD j) h
  simpa only [BitVec.getLsbD_and, hj, Bool.and_true] using hbit

/-- So they agree in every field that lies there. -/
theorem extractLsb'_of_and_eq {w w' : Half} (h : w &&& 0xF8FF = w' &&& 0xF8FF) {start len : Nat}
    (hmask : ∀ j < len, (0xF8FF : Half).getLsbD (start + j) = true) :
    w.extractLsb' start len = w'.extractLsb' start len := by
  apply BitVec.eq_of_getLsbD_eq
  intro j hj
  rw [BitVec.getLsbD_extractLsb', BitVec.getLsbD_extractLsb', getLsbD_of_and_eq h (hmask j hj)]

/-- The fields of the word that play a part lie outside bits 10:8 (R57). -/
theorem fields_eq_of_and_eq {w w' : Half} (h : w &&& 0xF8FF = w' &&& 0xF8FF) :
    extDa w = extDa w' ∧ extReg w = extReg w' ∧ extWl w = extWl w' ∧ extDisp w = extDisp w' :=
  ⟨getLsbD_of_and_eq h rfl, congrArg BitVec.toFin (extractLsb'_of_and_eq h (by decide)), getLsbD_of_and_eq h rfl,
    extractLsb'_of_and_eq h (by decide)⟩

/-- The index value by the variant of the word (R57's table). -/
theorem indexValue_by_variant (w : Half) (s : State) :
    let x := indexValue (extDa w) (extReg w) (extWl w) s
    (w &&& 0x8800 = 0x0000 ∧ x = ((s.dreg.get (w.extractLsb' 12 3).toFin).extractLsb' 0 16).signExtend 32)
      ∨ (w &&& 0x8800 = 0x0800 ∧ x = s.dreg.get (w.extractLsb' 12 3).toFin)
      ∨ (w &&& 0x8800 = 0x8000 ∧ x = ((s.areg.get (w.extractLsb' 12 3).toFin).extractLsb' 0 16).signExtend 32)
      ∨ (w &&& 0x8800 = 0x8800 ∧ x = s.areg.get (w.extractLsb' 12 3).toFin) := by
  rw [and_variantMask]
  cases extDa w <;> cases extWl w
  · exact .inl ⟨rfl, rfl⟩
  · exact .inr (.inl ⟨rfl, rfl⟩)
  · exact .inr (.inr (.inl ⟨rfl, rfl⟩))
  · exact .inr (.inr (.inr ⟨rfl, rfl⟩))

/-- IDX_GET takes the fields of the word at `PC`. -/
theorem exec_idxGet_of_word {s : State} {w : Half} (hr : s.run = .running)
    (hle : s.pc.toNat + 2 ≤ s.cfg.memAloc.toNat) (hw : streamExt s = w) :
    exec .idxGet s = .next ((advancePc 2 s).setResult (.ok (respData
      (indexSum (extDa w) (extReg w) (extWl w) (extDisp w) s)))) :=
  hw ▸ exec_decoder_of_le (i := .idxGet) rfl hr hle

/-- Settles O34: IDX_GET takes the variant's index value (`indexValue_by_variant`), and no field of the word that it takes
lies in bits 10:8 (`fields_eq_of_and_eq`). -/
theorem scaleBitsAreIgnored : Obligations.ScaleBitsAreIgnored := by
  intro s w w' hr hle hw
  have hexec := exec_idxGet_of_word hr hle hw
  refine ⟨⟨_, hexec, indexValue_by_variant w s⟩, fun m' hw' hand t h => ?_⟩
  have hexec' := exec_idxGet_of_word (s := s.setMem m') hr hle hw'
  obtain ⟨hda, hreg, hwl, hdisp⟩ := fields_eq_of_and_eq hand
  rw [← hda, ← hreg, ← hwl, ← hdisp] at hexec'
  cases hexec.symm.trans h
  exact hexec'

/-! The decoder reads its slot only (R96). -/

/-- The value of a decoder command depends on `PC`, the registers and the bytes of the slot. -/
theorem decoderValue_congr {i : Instr} {n : Nat} {s s' : State} (hc : consumed i = some n) (hpc : s'.pc = s.pc)
    (hd : s'.dreg = s.dreg) (ha : s'.areg = s.areg)
    (hbytes : ∀ k, k < n → streamByte k s' = streamByte k s) : decoderValue i s' = decoderValue i s := by
  cases i with
  | idxGet =>
    cases hc
    have hext : streamExt s' = streamExt s := by rw [streamExt, streamExt, hbytes 0 (by omega), hbytes 1 (by omega)]
    simp only [decoderValue, indexSum, indexValue, readA, readD, hext, hd, ha]
  | immGetB =>
    cases hc
    simp only [decoderValue, immValue, hbytes 1 (by omega)]
  | immGetW =>
    cases hc
    simp only [decoderValue, immValue, hpc]
    exact readBE_congr _ _ _ _ (by simpa only [streamByte, hpc] using hbytes)
  | immGetL =>
    cases hc
    simp only [decoderValue, immValue, hpc]
    exact readBE_congr _ _ _ _ (by simpa only [streamByte, hpc] using hbytes)
  | _ => cases hc

/-- Settles O32: a decoder command that completes is `exec_decoder_of_le` in both states, with one value
(`decoderValue_congr`). -/
theorem decoderDependsOnItsSlotOnly : Obligations.DecoderDependsOnItsSlotOnly := by
  intro i n s t hc hr h
  have hle : s.pc.toNat + n ≤ s.cfg.memAloc.toNat := by
    obtain ⟨-, hle, -⟩ | ⟨ha, -⟩ := exec_next_of_consumed hc h
    · exact hle
    · simp [hr] at ha
  cases (exec_decoder_of_le hc hr hle).symm.trans h
  refine ⟨⟨rfl, rfl, rfl, rfl, rfl, rfl, rfl, rfl, advancePc_pc_toNat hle⟩, fun sr' envTop' io' m' hbytes => ?_⟩
  rw [← decoderValue_congr (s := s)
    (s' := { s with sr := sr', cfg := { s.cfg with envTop := envTop', ioThrough := io' }, mem := m' }) hc rfl rfl rfl hbytes]
  exact exec_decoder_of_le hc hr hle

/-! The decoder and the accessor (R47, R97). -/

/-- Below 2^24 masking changes nothing. -/
theorem mask24_of_lt {a : Word} (h : a.toNat < 16777216) : mask24 a = a := by
  apply BitVec.eq_of_toNat_eq
  rw [mask24_toNat, Nat.mod_eq_of_lt h]

/-- In a well-formed configuration `PC` in RAM is its own masked address, and an access there is performed. -/
theorem performed_pc {s : State} (hw : s.cfg.wf = true) (hram : s.cfg.envTop ≤ s.pc) (hb : s.pc < s.cfg.memAloc) :
    mask24 s.pc = s.pc ∧ performed s.pc s = true := by
  have hio : Config.ioBase.toNat = 12582912 := rfl
  have hbase := BitVec.le_def.mp ((config_wf_iff _).mp hw).2
  have hmask : mask24 s.pc = s.pc := mask24_of_lt (by have := BitVec.lt_def.mp hb; omega)
  exact ⟨hmask, (performed_iff _ _).mpr (hmask.symm ▸ ⟨hb, .inl hram⟩)⟩

/-- Settles O33: in RAM both read the bytes at `PC`, which masking leaves; in LOW in user mode the access is invalid. -/
theorem decoderAgreesWithTheAccessorInRam : Obligations.DecoderAgreesWithTheAccessorInRam := by
  intro s hr hw
  refine ⟨fun hram hle => ?word, fun hram hle => ?long, fun sz hlow hs hle => ?low⟩
  case word =>
    obtain ⟨hmask, hp⟩ := performed_pc hw hram (BitVec.lt_def.mpr (by omega))
    have hf : fits .word s.pc s = true := (fits_iff _ _ _).mpr (hmask.symm ▸ hle)
    have hword := exec_memRdOf_of_fits hr hp hf
    have hbyte := exec_memRdOf_inside (sz' := .byte) (k := 1) hr hw hp hf (by decide)
    rw [hmask] at hword hbyte
    rw [sizeBytes, readBE_one] at hbyte
    exact ⟨_, _, exec_decoder_of_le (i := .immGetW) rfl hr hle, hword, exec_decoder_of_le (i := .immGetB) rfl hr hle,
      hbyte⟩
  case long =>
    obtain ⟨hmask, hp⟩ := performed_pc hw hram (BitVec.lt_def.mpr (by omega))
    have hf : fits .long s.pc s = true := (fits_iff _ _ _).mpr (hmask.symm ▸ hle)
    have hlong := exec_memRdOf_of_fits hr hp hf
    rw [hmask] at hlong
    exact ⟨_, exec_decoder_of_le (i := .immGetL) rfl hr hle, hlong⟩
  case low =>
    have hio : Config.ioBase.toNat = 12582912 := rfl
    have hbase := BitVec.le_def.mp ((config_wf_iff _).mp hw).2
    have hmask : mask24 s.pc = s.pc := mask24_of_lt (by omega)
    have hslot : slotBytes sz ≤ 4 := by cases sz <;> decide
    have hinvalid : locate sz s.pc s = .fatal .invalidAddress s.pc := by
      have hbelow : mask24 s.pc < Config.ioBase := hmask.symm ▸ BitVec.lt_def.mpr (by omega)
      exact (locate_of_invalid hbelow (.inl ⟨hmask.symm ▸ hlow, hs⟩)).trans (by rw [hmask])
    exact ⟨⟨_, _, exec_decoder_of_le (consumed_immGetOf sz) hr (by omega)⟩, (exec_access_of_fatal hr hinvalid 0).1⟩

/-- The extension word at `PC` after a word has been stored there. -/
theorem streamExt_writeBE (s : State) (v : Word) :
    streamExt (s.setMem (writeBE s.mem s.pc.toNat 2 v)) = v.extractLsb' 0 16 := by
  have hhigh : streamByte 0 (s.setMem (writeBE s.mem s.pc.toNat 2 v)) = v.extractLsb' 8 8 :=
    readByte_writeBE_inside s.mem s.pc.toNat 2 v 0 (by decide)
  have hlow : streamByte 1 (s.setMem (writeBE s.mem s.pc.toNat 2 v)) = v.extractLsb' 0 8 :=
    readByte_writeBE_inside s.mem s.pc.toNat 2 v 1 (by decide)
  rw [streamExt, extOfBytes, hhigh, hlow, extract_bytes_two]

/-- Settles O36: the store puts the bytes of `v` at `PC`, where the decoder's commands read them. -/
theorem fetchSeesTheStoreBeforeIt : Obligations.FetchSeesTheStoreBeforeIt := by
  intro s addr v hr hp hpc
  refine ⟨fun hf => ?word, fun hf => ?long⟩
  case word =>
    have hstore := exec_memWrOf_of_fits hr hp hf v
    rw [fits_iff] at hf
    rw [hpc] at hf hstore
    have hbyte := readByte_writeBE_inside s.mem s.pc.toNat 2 v 1 (by decide)
    refine ⟨_, hstore, ?immGetW, ?immGetB, ?idxGet⟩
    case immGetW => exact exec_decoder_of_value (i := .immGetW) rfl hr hf (readBE_writeBE _ _ .word v)
    case immGetB => exact exec_decoder_of_value (i := .immGetB) rfl hr hf (congrArg zext8 hbyte)
    case idxGet =>
      rw [← streamExt_writeBE s v]
      exact exec_idxGet_eq_decodeExt hr hf
  case long =>
    have hstore := exec_memWrOf_of_fits hr hp hf v
    rw [fits_iff] at hf
    rw [hpc] at hf hstore
    exact ⟨_, hstore, exec_decoder_of_value (i := .immGetL) rfl hr hf (readBE_writeBE _ _ .long v)⟩

/-! The decoder's frame. -/

/-- An operand word advances `PC` and reports a result, or the hold refuses it. -/
theorem exec_next_of_operandWord {i : Instr} {s t : State} (hw : isOperandWord i = true) (h : exec i s = .next t) :
    (∃ v, t = (advancePc 2 s).setResult (.ok (respData v))) ∨ t = s.setResult (.refused .aborting) := by
  cases i with
  | extDnW reg ign disp | extDnL reg ign disp | extAnW reg ign disp | extAnL reg ign disp =>
    obtain ⟨-, h⟩ | ⟨-, h⟩ := whenRunning_next h
    · exact .inl ⟨_, indexed_next h⟩
    · exact .inr h
  | _ => cases hw

/-- Settles O48: a decoder command or an operand word advances `PC` and reports, or is refused. -/
theorem frameOfTheDecoder : Obligations.FrameOfTheDecoder := by
  intro i s t hi h
  have hshape : (∃ n r, t = (advancePc n s).setResult r) ∨ ∃ r, t = s.setResult r := by
    obtain hc | hw := hi
    · obtain ⟨n, hc⟩ := Option.isSome_iff_exists.mp hc
      obtain ⟨-, -, v, h⟩ | ⟨-, h⟩ := exec_next_of_consumed hc h
      · exact .inl ⟨n, _, h⟩
      · exact .inr ⟨_, h⟩
    · obtain ⟨v, h⟩ | h := exec_next_of_operandWord hw h
      · exact .inl ⟨2, _, h⟩
      · exact .inr ⟨_, h⟩
  obtain ⟨n, r, rfl⟩ | ⟨r, rfl⟩ := hshape
  · exact ⟨rfl, fun _ => rfl⟩
  · exact ⟨rfl, fun _ => rfl⟩

end Sys2Proof.Machine
end

section
/-! PROOFS. Aborts and the hold: what an abort is (R112), what causes one (R110), what `DIAG` adds to it (R126), how its
address is reported (R122), and what a held block does (R115). -/

namespace Sys2Proof.Machine

/-! The hold and the one sequence. -/

/-- Under the hold every instruction is turned away (R115). -/
theorem exec_of_aborting {s : State} (h : s.run = .aborting) (i : Instr) :
    exec i s = .next (s.setResult (.refused .aborting)) := by
  cases i <;> exact whenRunning_of_aborting h _

/-- Settles O42: `exec_of_aborting`. -/
theorem holdRefusesEveryCommand : Obligations.HoldRefusesEveryCommand :=
  fun i _ h => exec_of_aborting h i

/-- Settles O37: ABORT takes the abort of kind `Explicit`, which has no message. -/
theorem abortCommandTakesTheAbort : Obligations.AbortCommandTakesTheAbort := by
  intro s addr hr
  have hexec : exec (.abort addr) s = .next (takeAbort .explicit .read addr s) := whenRunning_of_running hr _
  rw [hexec]
  simp [takeAbort, abortEvents, AbortKind.code, Dir.code, Config.abortStatus]

/-- Settles O38: the one way into `Aborting` is `takeAbort`, written out. -/
theorem everyAbortRunsTheOneSequence : Obligations.EveryAbortRunsTheOneSequence := by
  intro i s t hr h ha
  obtain ⟨kind, dir, addr, rfl⟩ := exec_takes_abort h hr ha
  refine ⟨kind, dir, addr, ?_⟩
  cases kind <;> cases dir <;> simp [takeAbort, abortEvents, AbortKind.code, Dir.code, Config.abortStatus]

/-- The events of a guard's abort are the message, then those of an abort without one. -/
theorem abortEvents_of_guard {kind : AbortKind} (hk : kind = .ioRegion ∨ kind = .invalidAddress) (dir : Dir)
    (a24 : Word) (s : State) :
    abortEvents kind dir a24 s = .message kind dir a24 :: abortEvents .explicit .read a24 s := by
  obtain rfl | rfl := hk <;> rfl

/-- Settles O16: the queries of both directions follow one verdict. -/
theorem guardVerdictIgnoresTheDirection : Obligations.GuardVerdictIgnoresTheDirection := by
  intro s addr hr
  rw [exec_guardRd_of_running hr, exec_guardWr_of_running hr]
  cases hv : guardVerdict addr s with
  | permit => exact .inl ⟨true, guardQuery_of_permit hv _, guardQuery_of_permit hv _⟩
  | substitute => exact .inl ⟨false, guardQuery_of_substitute hv _, guardQuery_of_substitute hv _⟩
  | fatal kind a24 =>
    have hevents := abortEvents_of_guard (guardVerdict_fatal hv).1
    refine .inr ⟨kind, a24, _, guardQuery_of_fatal hv _, rfl, rfl, abortEvents .explicit .read a24 s, ?_, ?_⟩
    · rw [takeAbort_out, hevents]
    · rw [guardQuery_of_fatal hv, takeAbort, hevents]
      rfl

/-! The causes of an abort (R110). -/

/-- The span rule aborts nothing. -/
theorem spanned_ne_fatal (sz : Size) (a24 a : Word) (s : State) (kind : AbortKind) :
    spanned sz a24 s ≠ .fatal kind a := by
  unfold spanned
  split <;> nofun

/-- A fatal answer of the accessor is the guard's. -/
theorem guardVerdict_of_locate_fatal {sz : Size} {addr : Word} {s : State} {kind : AbortKind} {a24 : Word}
    (h : locate sz addr s = .fatal kind a24) : guardVerdict addr s = .fatal kind a24 := by
  unfold locate at h
  rw [guardVerdict_mask24] at h
  split at h
  next => exact (spanned_ne_fatal _ _ _ _ _ h).elim
  next =>
    split at h
    next => cases h
    next hv => cases h; exact hv
    next => exact (spanned_ne_fatal _ _ _ _ _ h).elim

/-- An abort that stands in the result has been taken, on a fatal verdict of the guard. -/
def GuardAborted (dir : Dir) (addr : Word) (s t : State) : Prop :=
  ∀ kind dir' a24, t.result = some (.aborted kind dir' a24) →
    dir' = dir ∧ guardVerdict addr s = .fatal kind a24 ∧ t = takeAbort kind dir a24 s

theorem guardAborted_takeAbort {dir : Dir} {addr a24 : Word} {s : State} {kind : AbortKind}
    (hv : guardVerdict addr s = .fatal kind a24) : GuardAborted dir addr s (takeAbort kind dir a24 s) := by
  intro kind' dir' a24' hres
  cases hres
  exact ⟨rfl, hv, rfl⟩

theorem guardAborted_of_ok {dir : Dir} {addr : Word} {s t : State} {resp : Response} (h : t.result = some (.ok resp)) :
    GuardAborted dir addr s t := by
  intro kind dir' a24 hres
  rw [h] at hres
  cases hres

theorem guardQuery_aborted {dir : Dir} {addr : Word} {s t : State} (h : guardQuery dir addr s = .next t) :
    GuardAborted dir addr s t := by
  unfold guardQuery at h
  split at h
  next => cases h; exact guardAborted_of_ok rfl
  next => cases h; exact guardAborted_of_ok rfl
  next hv => cases h; exact guardAborted_takeAbort hv

theorem memRead_aborted {sz : Size} {addr : Word} {s t : State} (h : memRead sz addr s = .next t) :
    GuardAborted .read addr s t := by
  unfold memRead at h
  split at h
  next => cases h; exact guardAborted_of_ok rfl
  next => cases h; exact guardAborted_of_ok rfl
  next hl => cases h; exact guardAborted_takeAbort (guardVerdict_of_locate_fatal hl)
  next => cases h

theorem memWrite_aborted {sz : Size} {addr wdata : Word} {s t : State} (h : memWrite sz addr wdata s = .next t) :
    GuardAborted .write addr s t := by
  unfold memWrite at h
  split at h
  next => cases h; exact guardAborted_of_ok rfl
  next => cases h; exact guardAborted_of_ok rfl
  next hl => cases h; exact guardAborted_takeAbort (guardVerdict_of_locate_fatal hl)
  next => cases h

/-- What an abort comes from (R110): ABORT, or a fatal verdict of the guard on the command's address. -/
def AbortCause (i : Instr) (kind : AbortKind) (dir : Dir) (addr : Word) (s : State) : Prop :=
  (kind = .explicit ∧ dir = .read ∧ i = .abort addr)
    ∨ ∃ a, accessOf i = some (dir, a) ∧ guardVerdict a s = .fatal kind addr

theorem exec_aborted {i : Instr} {s t : State} {kind : AbortKind} {dir : Dir} {addr : Word} (hr : s.run = .running)
    (h : exec i s = .next t) (hres : t.result = some (.aborted kind dir addr)) :
    t = takeAbort kind dir addr s ∧ AbortCause i kind dir addr s := by
  have hrunning (body : StepOutcome) : whenRunning s body = body := whenRunning_of_running hr body
  cases i with
  | guardRd a | guardWr a =>
    obtain ⟨rfl, hv, ht⟩ := guardQuery_aborted ((hrunning _).symm.trans h) _ _ _ hres
    exact ⟨ht, .inr ⟨a, rfl, hv⟩⟩
  | memRdB a | memRdW a | memRdL a =>
    obtain ⟨rfl, hv, ht⟩ := memRead_aborted ((hrunning _).symm.trans h) _ _ _ hres
    exact ⟨ht, .inr ⟨a, rfl, hv⟩⟩
  | memWrB a v | memWrW a v | memWrL a v =>
    obtain ⟨rfl, hv, ht⟩ := memWrite_aborted ((hrunning _).symm.trans h) _ _ _ hres
    exact ⟨ht, .inr ⟨a, rfl, hv⟩⟩
  | abort a =>
    cases (hrunning _).symm.trans h
    cases hres
    exact ⟨rfl, .inl ⟨rfl, rfl, rfl⟩⟩
  | idxGet | immGetB | immGetW | immGetL =>
    obtain ⟨-, -, v, rfl⟩ | ⟨-, rfl⟩ := exec_next_of_consumed rfl h <;> cases hres
  | extDnW reg ign disp | extDnL reg ign disp | extAnW reg ign disp | extAnL reg ign disp =>
    obtain ⟨v, rfl⟩ | rfl := exec_next_of_operandWord rfl h <;> cases hres

/-- The inversion of a verdict `IoRegion` (R70). -/
theorem guardVerdict_ioRegion {a a24 : Word} {s : State} (h : guardVerdict a s = .fatal .ioRegion a24) :
    a24 = mask24 a ∧ Config.ioBase ≤ a24 ∧ s.cfg.ioThrough = false := by
  unfold guardVerdict at h
  split_ifs at h with hio ht hbad <;> cases h
  exact ⟨rfl, hio, by simpa using ht⟩

/-- The inversion of a verdict `InvalidAddress` (R70). -/
theorem guardVerdict_invalidAddress {a a24 : Word} {s : State} (h : guardVerdict a s = .fatal .invalidAddress a24) :
    a24 = mask24 a ∧ a24 < Config.ioBase ∧ (supervisor s = false ∨ s.cfg.memAloc ≤ a24) := by
  unfold guardVerdict at h
  split_ifs at h with hio ht hbad <;> cases h
  exact ⟨rfl, BitVec.not_le.mp hio, hbad⟩

/-- Settles O39: `exec_aborted`, with the inversion of the guard's verdict of each kind. -/
theorem abortKindsHaveTheirCauses : Obligations.AbortKindsHaveTheirCauses := by
  intro i s t kind dir addr hr h hres
  obtain ⟨rfl, hcause⟩ := exec_aborted hr h hres
  refine ⟨rfl, rfl, rfl, rfl, rfl, by cases dir <;> rfl, fun hk => ?ioRegion, fun hk => ?invalid, fun hk => ?explicit⟩
  case ioRegion =>
    subst hk
    obtain ⟨hk, -, -⟩ | ⟨a, ha, hv⟩ := hcause
    · cases hk
    · obtain ⟨haddr, hio, ht⟩ := guardVerdict_ioRegion hv
      exact ⟨rfl, hio, ht, a, ha, haddr⟩
  case invalid =>
    subst hk
    obtain ⟨hk, -, -⟩ | ⟨a, ha, hv⟩ := hcause
    · cases hk
    · obtain ⟨haddr, hio, hbad⟩ := guardVerdict_invalidAddress hv
      exact ⟨rfl, hio, hbad, a, ha, haddr⟩
  case explicit =>
    subst hk
    obtain ⟨-, hdir, hi⟩ | ⟨a, -, hv⟩ := hcause
    · exact ⟨rfl, hdir, hi⟩
    · obtain ⟨hk | hk, -⟩ := guardVerdict_fatal hv <;> cases hk

/-! What `DIAG` does (R18, R126). -/

/-- The state with another `DIAG`. -/
def withDiag (b : Bool) (s : State) : State := s.setCfg { s.cfg with diag := b }

/-- Where the one outcome is a next state the other is the same, but for `DIAG` and the register dumps on the trace. -/
def SameButForDump (b : Bool) (o o' : StepOutcome) : Prop :=
  ∀ t, o = .next t → ∃ t', o' = .next t' ∧ t' = { t with cfg := { t.cfg with diag := b }, out := t'.out }
    ∧ t'.out.filter (fun e => !isRegDump e) = t.out.filter (fun e => !isRegDump e)

/-- An outcome that puts nothing on the trace. -/
theorem sameButForDump_next (b : Bool) (u : State) : SameButForDump b (.next u) (.next (withDiag b u)) := by
  intro t h
  cases h
  exact ⟨withDiag b u, rfl, rfl, rfl⟩

/-- The dump is the only event of an abort that `DIAG` decides. -/
theorem abortEvents_filter (kind : AbortKind) (dir : Dir) (addr : Word) (b : Bool) (s : State) :
    (abortEvents kind dir addr (withDiag b s)).filter (fun e => !isRegDump e)
      = (abortEvents kind dir addr s).filter (fun e => !isRegDump e) := by
  have hdump (c : Bool) (ds as : Vector Word 8) (pc : Word) (sr : Half) :
      (if c then [Event.regDump ds as pc sr] else []).filter (fun e => !isRegDump e) = [] := by
    cases c <;> rfl
  simp only [abortEvents, List.filter_append, hdump]

theorem sameButForDump_raiseAbort (kind : AbortKind) (dir : Dir) (addr : Word) (b : Bool) (s : State) :
    SameButForDump b (raiseAbort kind dir addr s) (raiseAbort kind dir addr (withDiag b s)) := by
  intro t h
  cases h
  refine ⟨_, rfl, rfl, ?_⟩
  rw [takeAbort_out, takeAbort_out, List.filter_append, List.filter_append, abortEvents_filter]
  rfl

theorem sameButForDump_fault (b : Bool) (f : Fault) (o : StepOutcome) : SameButForDump b (.fault f) o := by
  intro t h
  cases h

theorem sameButForDump_whenRunning {b : Bool} {s : State} {body body' : StepOutcome} (h : SameButForDump b body body') :
    SameButForDump b (whenRunning s body) (whenRunning (withDiag b s) body') := by
  cases hr : s.run with
  | running => rwa [whenRunning_of_running hr, whenRunning_of_running (s := withDiag b s) hr]
  | aborting =>
    rw [whenRunning_of_aborting hr, whenRunning_of_aborting (s := withDiag b s) hr]
    exact sameButForDump_next b _

theorem sameButForDump_guardQuery (dir : Dir) (addr : Word) (b : Bool) (s : State) :
    SameButForDump b (guardQuery dir addr s) (guardQuery dir addr (withDiag b s)) := by
  have hv : guardVerdict addr (withDiag b s) = guardVerdict addr s := rfl
  unfold guardQuery
  rw [hv]
  cases guardVerdict addr s with
  | permit => exact sameButForDump_next b _
  | substitute => exact sameButForDump_next b _
  | fatal kind a24 => exact sameButForDump_raiseAbort kind dir a24 b s

theorem sameButForDump_memRead (sz : Size) (addr : Word) (b : Bool) (s : State) :
    SameButForDump b (memRead sz addr s) (memRead sz addr (withDiag b s)) := by
  have hl : locate sz addr (withDiag b s) = locate sz addr s := rfl
  unfold memRead
  rw [hl]
  cases locate sz addr s with
  | index i => exact sameButForDump_next b _
  | neutralised => exact sameButForDump_next b _
  | fatal kind a24 => exact sameButForDump_raiseAbort kind .read a24 b s
  | spanFault => exact sameButForDump_fault b _ _

theorem sameButForDump_memWrite (sz : Size) (addr wdata : Word) (b : Bool) (s : State) :
    SameButForDump b (memWrite sz addr wdata s) (memWrite sz addr wdata (withDiag b s)) := by
  have hl : locate sz addr (withDiag b s) = locate sz addr s := rfl
  unfold memWrite
  rw [hl]
  cases locate sz addr s with
  | index i => exact sameButForDump_next b _
  | neutralised => exact sameButForDump_next b _
  | fatal kind a24 => exact sameButForDump_raiseAbort kind .write a24 b s
  | spanFault => exact sameButForDump_fault b _ _

/-- A fetch does not look at `DIAG`, nor does what a decoder command answers. -/
theorem sameButForDump_decoder (n : Nat) (v : Word) (b : Bool) (s : State) :
    SameButForDump b (afterFetch n s (complete (respData v) (advancePc n s)))
      (afterFetch n (withDiag b s) (complete (respData v) (advancePc n (withDiag b s)))) := by
  have hf : fetchable n (withDiag b s) = fetchable n s := rfl
  unfold afterFetch
  rw [hf]
  split_ifs
  · exact sameButForDump_next b _
  · exact sameButForDump_fault b _ _

theorem exec_sameButForDump (i : Instr) (b : Bool) (s : State) : SameButForDump b (exec i s) (exec i (withDiag b s)) := by
  cases i with
  | guardRd a | guardWr a => exact sameButForDump_whenRunning (sameButForDump_guardQuery _ a b s)
  | memRdB a | memRdW a | memRdL a => exact sameButForDump_whenRunning (sameButForDump_memRead _ a b s)
  | memWrB a v | memWrW a v | memWrL a v => exact sameButForDump_whenRunning (sameButForDump_memWrite _ a v b s)
  | idxGet | immGetB | immGetW | immGetL => exact sameButForDump_whenRunning (sameButForDump_decoder _ _ b s)
  | abort a => exact sameButForDump_whenRunning (sameButForDump_raiseAbort .explicit .read a b s)
  | extDnW reg ign disp | extDnL reg ign disp | extAnW reg ign disp | extAnL reg ign disp =>
    exact sameButForDump_whenRunning (sameButForDump_next b _)

/-- Settles O40: `exec_sameButForDump`. -/
theorem diagOnlyAddsTheRegisterDump : Obligations.DiagOnlyAddsTheRegisterDump :=
  fun i s t b => exec_sameButForDump i b s t

/-! The reported digits (R122). -/

theorem hexDigits_length (n v : Nat) : (hexDigits n v).length = n := by
  induction n generalizing v with
  | zero => rfl
  | succ n ih => simp [hexDigits, ih]

/-- The sixteen digits are different characters. -/
theorem hexDigit_inj : ∀ a < 16, ∀ b < 16, hexDigit a = hexDigit b ↔ a = b := by
  decide

/-- `n` digits are equal exactly when the numbers are equal modulo 16^n. -/
theorem hexDigits_eq_iff (n v w : Nat) : hexDigits n v = hexDigits n w ↔ v % 16 ^ n = w % 16 ^ n := by
  induction n generalizing v w with
  | zero => simp [hexDigits, Nat.mod_one]
  | succ n ih =>
    have hdigit := hexDigit_inj (v % 16) (Nat.mod_lt _ (by decide)) (w % 16) (Nat.mod_lt _ (by decide))
    rw [hexDigits, hexDigits, List.append_singleton_inj, ih, hdigit, Nat.pow_succ', Nat.mod_mul, Nat.mod_mul]
    omega

/-- Settles O41: 6 digits are the number modulo 2^24, which is the masked address, and 8 digits the whole address. -/
theorem reportedDigitsDetermineTheAddress : Obligations.ReportedDigitsDetermineTheAddress := by
  intro kind dir a b
  refine ⟨hexDigits_length _ _, hexDigits_length _ _, ?message, ?line⟩
  case message =>
    rw [← BitVec.toNat_inj, mask24_toNat, mask24_toNat]
    exact hexDigits_eq_iff 6 a.toNat b.toNat
  case line =>
    rw [← BitVec.toNat_inj, ← Nat.mod_eq_of_lt a.isLt, ← Nat.mod_eq_of_lt b.isLt]
    exact hexDigits_eq_iff 8 a.toNat b.toNat

/-! The frames of the commands that store nothing, and of stores. -/

/-- The next state only reports a result, or is the state of an abort. -/
def ReportsOrAborts (s t : State) : Prop :=
  (∃ r, t = s.setResult r) ∨ ∃ kind dir addr, t = takeAbort kind dir addr s

theorem whenRunning_reportsOrAborts {s t : State} {body : StepOutcome} (h : whenRunning s body = .next t)
    (hbody : body = .next t → ReportsOrAborts s t) : ReportsOrAborts s t := by
  obtain ⟨-, h⟩ | ⟨-, h⟩ := whenRunning_next h
  · exact hbody h
  · exact .inl ⟨_, h⟩

theorem guardQuery_reportsOrAborts {dir : Dir} {addr : Word} {s t : State} (h : guardQuery dir addr s = .next t) :
    ReportsOrAborts s t := by
  obtain ⟨p, h⟩ | ⟨kind, a24, -, h⟩ := guardQuery_next h
  · exact .inl ⟨_, h⟩
  · exact .inr ⟨kind, dir, a24, h⟩

theorem memRead_reportsOrAborts {sz : Size} {addr : Word} {s t : State} (h : memRead sz addr s = .next t) :
    ReportsOrAborts s t := by
  obtain ⟨v, h⟩ | ⟨kind, a24, -, h⟩ := memRead_next h
  · exact .inl ⟨_, h⟩
  · exact .inr ⟨kind, .read, a24, h⟩

theorem raiseAbort_reportsOrAborts {kind : AbortKind} {dir : Dir} {addr : Word} {s t : State}
    (h : raiseAbort kind dir addr s = .next t) : ReportsOrAborts s t := by
  cases h
  exact .inr ⟨kind, dir, addr, rfl⟩

theorem exec_reportsOrAborts {i : Instr} {s t : State} (hs : isStore i = false) (hc : consumed i = none)
    (hw : isOperandWord i = false) (h : exec i s = .next t) : ReportsOrAborts s t := by
  cases i with
  | guardRd | guardWr => exact whenRunning_reportsOrAborts h guardQuery_reportsOrAborts
  | memRdB | memRdW | memRdL => exact whenRunning_reportsOrAborts h memRead_reportsOrAborts
  | abort => exact whenRunning_reportsOrAborts h raiseAbort_reportsOrAborts
  | memWrB | memWrW | memWrL => cases hs
  | idxGet | immGetB | immGetW | immGetL => cases hc
  | extDnW | extDnL | extAnW | extAnL => cases hw

/-- Settles O46: neither a report nor an abort writes a register or memory. -/
theorem frameOfQueriesReadsAndAbort : Obligations.FrameOfQueriesReadsAndAbort := by
  intro i s t hs hc hw h
  obtain ⟨r, rfl⟩ | ⟨kind, dir, addr, rfl⟩ := exec_reportsOrAborts hs hc hw h
  · exact ⟨rfl, rfl, rfl, rfl, rfl, fun _ => rfl, rfl, fun _ => rfl⟩
  · exact ⟨rfl, rfl, rfl, rfl, rfl, fun _ => rfl, rfl, nofun⟩

/-- Settles O47: a write stores at the index that `locate` gives, stores nothing, aborts, or is refused. -/
theorem frameOfStores : Obligations.FrameOfStores := by
  intro sz addr wdata s t h
  rw [exec_memWrOf] at h
  obtain ⟨hr, hbody⟩ | ⟨-, rfl⟩ := whenRunning_next h
  · obtain ⟨i, hi, rfl⟩ | ⟨-, rfl⟩ | ⟨kind, a24, -, rfl⟩ := memWrite_next hbody
    · refine ⟨fun a ha c hc => ?inside, fun hnone => ?nowhere, rfl, rfl, rfl, rfl, rfl, fun _ => rfl⟩
      case inside =>
        cases hi.symm.trans ha
        exact readByte_writeBE_outside _ _ _ _ c hc
      case nowhere =>
        obtain ha | hno := hnone
        · simp [hr] at ha
        · exact absurd hi (hno i)
    · exact ⟨fun _ _ _ _ => rfl, fun _ _ => rfl, rfl, rfl, rfl, rfl, rfl, fun _ => rfl⟩
    · exact ⟨fun _ _ _ _ => rfl, fun _ _ => rfl, rfl, rfl, rfl, rfl, rfl, nofun⟩
  · exact ⟨fun _ _ _ _ => rfl, fun _ _ => rfl, rfl, rfl, rfl, rfl, rfl, fun _ => rfl⟩

end Sys2Proof.Machine
end
